-- ==== Sys2Proof/Word.lean ====
section
/-! DEFINITION. The word and the byte of the RGE256 core (00_scope.md R8, R12). -/

namespace Sys2Proof

/-- A 32-bit word: an unsigned number; no value of the core is signed (R12). -/
abbrev Word := BitVec 32

/-- A byte. -/
abbrev Byte := BitVec 8

end Sys2Proof
end

