-- ==== Sys2Proof/Machine/Bytes.lean ====
section
/-! DEFINITION. Byte order and word arithmetic (00_scope.md R13, R14; 20_memory.md R50 to R52): little-endian. -/

namespace Sys2Proof.Machine

/-- Circular left rotation over 32 bits, for `0 < n < 32` (R13). -/
def rotl (x : Word) (n : Nat) : Word := (x <<< n) ||| (x >>> (32 - n))

/-- Byte `j` of a word: bits `8j+7 : 8j` (R14, R52). -/
def byteAt (w : Word) (j : Nat) : Byte := w.extractLsb' (8 * j) 8

/-- `LE32`: four bytes, the first the least significant (R14). -/
def le32 (b0 b1 b2 b3 : Byte) : Word :=
  BitVec.ofNat 32 (b0.toNat + 2 ^ 8 * b1.toNat + 2 ^ 16 * b2.toNat + 2 ^ 24 * b3.toNat)

/-- `LEBYTES`: the four bytes of a word, least significant first (R14). -/
def leBytes (w : Word) : List Byte := [byteAt w 0, byteAt w 1, byteAt w 2, byteAt w 3]

/-- `WORDS` of the `4k` bytes of `s` that start at index `first` (R14). -/
def wordsAt {m : Nat} (s : Vector Byte m) (first k : Nat) (h : first + 4 * k ≤ m := by decide) : Vector Word k :=
  Vector.ofFn fun i =>
    le32 (s[first + 4 * i.val]'(by omega)) (s[first + 4 * i.val + 1]'(by omega))
      (s[first + 4 * i.val + 2]'(by omega)) (s[first + 4 * i.val + 3]'(by omega))

/-- The first `m` bytes of `BYTES(w)`: byte `4i + j` is byte `j` of word `i` (R14, R82). -/
def bytesOf {k : Nat} (w : Vector Word k) (m : Nat) (h : m ≤ 4 * k := by decide) : Vector Byte m :=
  Vector.ofFn fun i => byteAt (w[i.val / 4]'(by omega)) (i.val % 4)

/-- A byte sequence as a vector of `m` bytes; the operations only use it on sequences of at least `m` bytes. -/
def toBytes (m : Nat) (l : List Byte) : Vector Byte m := Vector.ofFn fun i => l.getD i.val 0

/-- `m` zero bytes. -/
def zeroBytes (m : Nat) : Vector Byte m := Vector.replicate m 0

/-- Bytewise exclusive or (R13). -/
def xorBytes {m : Nat} (a b : Vector Byte m) : Vector Byte m := Vector.ofFn fun i => a[i.val] ^^^ b[i.val]

end Sys2Proof.Machine
end

