-- ==== Sys2Proof/Machine/Block.lean ====
section
/-! DEFINITION. The Block Transform (40_block_transform.md R73 to R85): a pure function. -/

namespace Sys2Proof.Machine

/-- The indices one quarter-round works on, in the roles `(a, b, c, d)` (R76, R77). -/
structure Quad where
  a : Fin 16
  b : Fin 16
  c : Fin 16
  d : Fin 16
deriving DecidableEq, Repr

/-- The quarter-round on four words, line by line (R76). -/
def quarterRound (a b c d : Word) : Word × Word × Word × Word :=
  let a := a + b
  let d := rotl (d ^^^ a) 16
  let c := c + d
  let b := rotl (b ^^^ c) 12
  let a := a + b
  let d := rotl (d ^^^ a) 8
  let c := c + d
  let b := rotl (b ^^^ c) 7
  (a, b, c, d)

/-- `QR(a, b, c, d)` on the working state; the four indices of a call are distinct (R76). -/
def quarterAt (x : Vector Word 16) (q : Quad) : Vector Word 16 :=
  let r := quarterRound x[q.a] x[q.b] x[q.c] x[q.d]
  (((x.set q.a r.1).set q.b r.2.1).set q.c r.2.2.1).set q.d r.2.2.2

/-- The index groups of a column round, in order (R77). -/
def columnQuads : List Quad := [⟨0, 4, 8, 12⟩, ⟨1, 5, 9, 13⟩, ⟨2, 6, 10, 14⟩, ⟨3, 7, 11, 15⟩]

/-- The index groups of a diagonal round, in order (R78). -/
def diagonalQuads : List Quad := [⟨0, 5, 10, 15⟩, ⟨1, 6, 11, 12⟩, ⟨2, 7, 8, 13⟩, ⟨3, 4, 9, 14⟩]

/-- One column round (R77). -/
def columnRound (x : Vector Word 16) : Vector Word 16 := columnQuads.foldl quarterAt x

/-- One diagonal round (R78). -/
def diagonalRound (x : Vector Word 16) : Vector Word 16 := diagonalQuads.foldl quarterAt x

/-- A column round, then a diagonal round (R80). -/
def doubleRound (x : Vector Word 16) : Vector Word 16 := diagonalRound (columnRound x)

/-- `n` double-rounds. -/
def doubleRounds : Nat → Vector Word 16 → Vector Word 16
  | 0, x => x
  | n + 1, x => doubleRounds n (doubleRound x)

/-- The initial state: constants, key, counter, nonce, in that order (R75). -/
def initialState (sigma : Vector Word 4) (k : Vector Word 8) (c : Word) (n : Vector Word 3) : Vector Word 16 :=
  #v[sigma[0], sigma[1], sigma[2], sigma[3], k[0], k[1], k[2], k[3], k[4], k[5], k[6], k[7], c, n[0], n[1], n[2]]

/-- The output words: 10 double-rounds (R80, 90_conflicts.md C1), then the feed-forward (R81). -/
def blockWords (sigma : Vector Word 4) (k : Vector Word 8) (c : Word) (n : Vector Word 3) : Vector Word 16 :=
  let s := initialState sigma k c n
  let x := doubleRounds 10 s
  Vector.zipWith (· + ·) x s

/-- `block` in full (R83), with `SIGMA` as an argument (R74). -/
def block (sigma : Vector Word 4) (k : Vector Word 8) (c : Word) (n : Vector Word 3) : Vector Byte 64 :=
  bytesOf (blockWords sigma k c n) 64

end Sys2Proof.Machine
end

