-- ==== Sys2Proof/Config.lean ====
section
/-! DEFINITION. The parameters of 00_scope.md R10 and 20_memory.md R42, and the constants of R8. -/

namespace Sys2Proof

/-- What one implementation fixes and the spec leaves OPEN.
The machine state holds one of these, so every step takes it as an argument (40_block_transform.md R74) and a
statement about all states is a statement about all parameters. -/
structure Params where
  /-- `SIGMA[0..3]`, the constant words of the block state (R10, R74). -/
  sigma : Vector Word 4
  /-- `TEST_HOOK`: does the debug window show KEY, NONCE, CTR and CUR (R10, R40). -/
  testHook : Bool
  /-- `BASE`, the address of the host register space, chosen by the platform (R42). -/
  base : Nat
deriving DecidableEq, Repr

/-- The default `SIGMA` of R10 and R74. PRESUMED by the spec itself ("from general knowledge"): log 1. -/
def Config.defaultSigma : Vector Word 4 :=
  #v[0x61707865, 0x3320646e, 0x79622d32, 0x6b206574]

/-- The parameters `State.reset` holds: the defaults of R10, and `BASE` at 0 (DESIGN CHOICE, logs 2 and 3). -/
def Config.defaultParams : Params :=
  { sigma := Config.defaultSigma, testHook := false, base := 0 }

/-- `ADDIN_MAX`: the most bytes of additional input one GENERATE can carry (R10). -/
def Config.addinMax : Nat := 44

/-- `KAT_EXPECTED`, the published known-answer output (R10, R104): OPEN, no byte of it is in the source (log 4). -/
opaque Config.katExpected : Vector Byte 64

end Sys2Proof
end

