-- ==== Sys2Proof/Syntax.lean ====
section
/-! DEFINITION. The five commands of 30_encoding.md R65, one constructor per row of spec/opcode_table.json. -/

namespace Sys2Proof

/-- A command as it comes out of the decoder (30_encoding.md R67). -/
inductive Instr where
  /-- INIT, OP 0x1, format N (R97). -/
  | init
  /-- RESEED, OP 0x2, format N (R98). -/
  | reseed
  /-- GENERATE, OP 0x3, format G: `OUTLEN = cmd[63:32]`, `ADDLEN = cmd[9:4]` (R62, R99). -/
  | generate (outlen : Word) (addlen : BitVec 6)
  /-- NEXTWORD32, OP 0x4, format N (R102). -/
  | nextword32
  /-- ZEROIZE, OP 0x5, format N (R103). -/
  | zeroize
deriving DecidableEq, Repr

end Sys2Proof
end

