-- ==== Sys2Proof/WellFormed.lean ====
section
/-! DEFINITION. Which commands the encoding admits (30_encoding.md R64, R66). -/

namespace Sys2Proof

/-- The one check on a command's fields: GENERATE carries at most `ADDIN_MAX` bytes of additional input (R64). -/
def Instr.wf : Instr → Bool
  | .init => true
  | .reseed => true
  | .generate _ addlen => decide (addlen.toNat ≤ Config.addinMax)
  | .nextword32 => true
  | .zeroize => true

end Sys2Proof
end

