-- ==== Sys2Proof/Decode.lean ====
section
/-! DEFINITION. The command word: fields (30_encoding.md R62), decoder (R67), check (60_exceptions.md R112), encoder. -/

namespace Sys2Proof

/-- The causes of a rejection (60_exceptions.md R111). "No code" (NONE, 0) is not one of them. -/
inductive RejectCode where
  /-- OP is 0x0 or in 0x6..0xF. -/
  | illegalOp
  /-- A reserved bit of the command word is 1. -/
  | reservedField
  /-- GENERATE with ADDLEN in 45..63. -/
  | badAddlen
  /-- RESEED, GENERATE or NEXTWORD32 while KEYED = 0. -/
  | notKeyed
deriving DecidableEq, Repr

/-- The number a code has in STATUS.ERR (R111). -/
def RejectCode.number : RejectCode → BitVec 4
  | .illegalOp => 1
  | .reservedField => 2
  | .badAddlen => 3
  | .notKeyed => 4

/-- What a command word means: a command, or a rejection. -/
inductive Decoded where
  | command (i : Instr)
  | reject (c : RejectCode)
deriving DecidableEq, Repr

/-- The command word of a CMD_LO write: `cmd[63:32] = CMD_HI`, `cmd[31:0]` = the value written (R61). -/
def commandWord (cmdHi lo : Word) : BitVec 64 := cmdHi ++ lo

/-- `OP = cmd[3:0]` (R62). -/
def opField (cmd : BitVec 64) : BitVec 4 := cmd.extractLsb' 0 4

/-- `ADDLEN = cmd[9:4]` (R62). -/
def addlenField (cmd : BitVec 64) : BitVec 6 := cmd.extractLsb' 4 6

/-- `OUTLEN = cmd[63:32]` (R62). -/
def outlenField (cmd : BitVec 64) : Word := cmd.extractLsb' 32 32

/-- The reserved bits of format G: `cmd[31:10]` (R63). -/
def reservedG (cmd : BitVec 64) : BitVec 22 := cmd.extractLsb' 10 22

/-- The reserved bits of format N: `cmd[31:4]` (R63). -/
def reservedN (cmd : BitVec 64) : BitVec 28 := cmd.extractLsb' 4 28

/-- The decoder, total, its tests in the order of R67 (the priority of R113). -/
def decode (cmd : BitVec 64) : Decoded :=
  let op := opField cmd
  if op = 0x0 ∨ 0x6 ≤ op then .reject .illegalOp
  else if op = 0x3 then
    if reservedG cmd ≠ 0 then .reject .reservedField
    else if Config.addinMax < (addlenField cmd).toNat then .reject .badAddlen
    else .command (.generate (outlenField cmd) (addlenField cmd))
  else if reservedN cmd ≠ 0 then .reject .reservedField
  else if op = 0x1 then .command .init
  else if op = 0x2 then .command .reseed
  else if op = 0x4 then .command .nextword32
  else .command .zeroize

/-- Is this a command that R112 rejects while KEYED = 0? -/
def needsKey : Instr → Bool
  | .init => false
  | .reseed => true
  | .generate _ _ => true
  | .nextword32 => true
  | .zeroize => false

/-- The check of R112: the decoder, then KEYED. -/
def check (cmd : BitVec 64) (keyed : Bool) : Decoded :=
  match decode cmd with
  | .reject c => .reject c
  | .command i => if needsKey i && !keyed then .reject .notKeyed else .command i

/-- The OP value of a command (R65). -/
def opcode : Instr → BitVec 4
  | .init => 0x1
  | .reseed => 0x2
  | .generate _ _ => 0x3
  | .nextword32 => 0x4
  | .zeroize => 0x5

/-- The low word of a command: OP, and for GENERATE the ADDLEN, every reserved bit 0 (R63). -/
def encodeLo : Instr → Word
  | .init => 0x00000001
  | .reseed => 0x00000002
  | .generate _ addlen => (0#22 ++ addlen ++ 0x3#4 : BitVec 32)
  | .nextword32 => 0x00000004
  | .zeroize => 0x00000005

/-- The high word: OUTLEN for GENERATE; format N ignores it, so any `ignored` will do (R63). -/
def encodeHi (ignored : Word) : Instr → Word
  | .init => ignored
  | .reseed => ignored
  | .generate outlen _ => outlen
  | .nextword32 => ignored
  | .zeroize => ignored

/-- The encoder, with the bits that format N ignores at a chosen value. -/
def encodeWith (ignored : Word) (i : Instr) : BitVec 64 :=
  commandWord (encodeHi ignored i) (encodeLo i)

/-- The encoder, with the ignored bits 0 (log 14). -/
def encode (i : Instr) : BitVec 64 := encodeWith 0 i

/-- The command a decoded word holds, if it holds one. -/
def Decoded.toInstr : Decoded → Option Instr
  | .command i => some i
  | .reject _ => none

/-- The host's question: what the decoder reads from the `nbits` bits of `w`, numbered as the opcode table numbers
them; the bits above `nbits` are 0. -/
def decodeTableWord (nbits w : Nat) : Option Instr :=
  (decode (BitVec.ofNat 64 (w % 2 ^ nbits))).toInstr

end Sys2Proof
end

