-- ==== Sys2Proof/Machine/State.lean ====
section
/-! DEFINITION. The state of the RGE256 core (10_state.md), what the host and the platform can do to it
(20_memory.md), the reasons a step can stop, and the state after reset (10_state.md R41). -/

namespace Sys2Proof.Machine

/-- Who makes an access: the one host of the instance, or an agent that is not it (20_memory.md R55). -/
inductive Agent where
  | host
  | other
deriving DecidableEq, Repr

/-- `MemRead` or `MemWrite` (20_memory.md R45). -/
inductive AccessKind where
  | read
  | write (v : Word)
deriving DecidableEq, Repr

/-- One access on the host register space, legal or not: `width` in bytes, `addr` as the platform addresses it
(`BASE + off`). -/
structure Access where
  agent : Agent
  addr : Nat
  width : Nat
  kind : AccessKind
deriving DecidableEq, Repr

/-- What comes to the core from outside, one at a time: an access, or the platform's reset (R54, R127). -/
inductive Event where
  | access (a : Access)
  | reset
deriving DecidableEq, Repr

/-- The registers of the host register space (20_memory.md R43). -/
inductive Reg where
  | cmdLo
  | cmdHi
  | status
  | result
  | arg (j : Fin 11)
  | dbgKey (i : Fin 8)
  | dbgNonce (i : Fin 3)
  | dbgCtr
  | dbgCur
  | reserved
deriving DecidableEq, Repr

/-- Faults: none. The core "is exception-free and total" (60_exceptions.md R110), so nobody raises a fault and the type
has no constructor. -/
inductive Fault where
deriving DecidableEq, Repr

/-- Why a step has no meaning. -/
inductive Refusal where
  /-- Raised by `exec` for a command whose meaning is not written. Safe: the run stops. No arm raises it. -/
  | notModelled (mnemonic : String)
  /-- Raised by an access of an agent that is not the instance's host (20_memory.md R55). Safe: the run stops. -/
  | secondHost
  /-- Raised by an access whose width is not 32 bits: the host's breach of R45. Safe: the run stops. -/
  | wrongWidth
  /-- Raised by an access outside `BASE + 0x00` to `BASE + 0xFF`: the host's breach of R45. Safe: the run stops. -/
  | outsideSpace
  /-- Raised by an access at an offset that is not a multiple of 4: the host's breach of R45 and R53. Safe: the run
  stops. -/
  | misaligned
deriving DecidableEq, Repr

/-- The machine's state: the core state, the interface state, the parameters, and two fields of the model's own. -/
structure State where
  /-- `KEY[0..7]` (10_state.md R20). -/
  key : Vector Word 8
  /-- `NONCE[0..2]` (R21). -/
  nonce : Vector Word 3
  /-- `CTR`, the block counter (R22). -/
  ctr : Word
  /-- `BUF[0..63]` (R23). -/
  buf : Vector Byte 64
  /-- `CUR`, the read cursor, 0..64 and nothing else (R24). -/
  cur : Fin 65
  /-- `KEYED` (R25). -/
  keyed : Bool
  /-- `SCRATCH[0..43]` (R26). -/
  scratch : Vector Byte 44
  /-- `CMD_HI` (R33). -/
  cmdHi : Word
  /-- `ARG[0..43]` (R35). -/
  arg : Vector Byte 44
  /-- `RESULT` (R37). -/
  result : Word
  /-- `STATUS.STICKY` (R39). -/
  sticky : Bool
  /-- `STATUS.ERR`: no code (NONE), or the code of the last command (R39, R111; log 17). -/
  err : Option RejectCode
  /-- `OUT`: the bytes delivered since reset, oldest first (R38). -/
  out : List Byte
  /-- The parameters of the machine; no step changes them (00_scope.md R10). -/
  params : Params
  /-- The model's own: what the host and the platform will do next, oldest first (log 5). -/
  pending : List Event
  /-- The model's own: the words host reads returned since reset, oldest first (log 7). -/
  reads : List Word
deriving DecidableEq, Repr

/-- The machine right after reset, for given parameters (10_state.md R41, 70_reset_and_hazards.md R127). -/
def State.resetWith (p : Params) : State :=
  { key := Vector.replicate 8 0
    nonce := Vector.replicate 3 0
    ctr := 0
    buf := Vector.replicate 64 0
    cur := 64
    keyed := false
    scratch := Vector.replicate 44 0
    cmdHi := 0
    arg := Vector.replicate 44 0
    result := 0
    sticky := false
    err := none
    out := []
    params := p
    pending := []
    reads := [] }

/-- The machine right after reset, with the parameters at the spec's defaults (00_scope.md R10). -/
def State.reset : State := State.resetWith Config.defaultParams

end Sys2Proof.Machine
end

