-- ==== Sys2Proof/Machine/Ops.lean ====
section
/-! DEFINITION. The named operations on the state: the (key‖nonce) representation (00_scope.md R15), the completion of a
command (60_exceptions.md R114), and the taking of a rejection (R115). There is no return from a rejection (R118). -/

namespace Sys2Proof.Machine

/-- `REP()`: the 44 bytes of KEY, then of NONCE (R15). -/
def rep (s : State) : Vector Byte 44 := bytesOf (s.key ++ s.nonce) 44

/-- `LOADREP(r)`: KEY from bytes 0..31, NONCE from bytes 32..43 (R15, R51). -/
def loadRep (r : Vector Byte 44) (s : State) : State :=
  { s with key := wordsAt r 0 8, nonce := wordsAt r 32 3 }

/-- `SCRATCH <- r; LOADREP(SCRATCH); SCRATCH <- zeros`: the scratch holds nothing afterwards (R95, R96, R98). -/
def loadThroughScratch (r : Vector Byte 44) (s : State) : State :=
  let s1 := { s with scratch := r }
  let s2 := loadRep s1.scratch s1
  { s2 with scratch := zeroBytes 44 }

/-- `OutEmit` of each byte in order (00_scope.md R16). -/
def emit (bytes : List Byte) (s : State) : State := { s with out := s.out ++ bytes }

/-- Completion of an accepted command (R114): ERR to 0, ARG to zeros, STICKY as it was. -/
def accept (s : State) : State := { s with err := none, arg := zeroBytes 44 }

/-- Taking a rejection, the one synchronous exception of the core (R115, R116): the code, STICKY, ARG cleared, and
nothing else. -/
def reject (c : RejectCode) (s : State) : State := { s with err := some c, sticky := true, arg := zeroBytes 44 }

/-- The platform's reset (70_reset_and_hazards.md R127): every piece of state to its reset value; what is still to come
from outside is not state of the core and stays. -/
def platformReset (s : State) : State := { State.resetWith s.params with pending := s.pending }

end Sys2Proof.Machine
end

