-- ==== Sys2Proof/Machine/Stream.lean ====
section
/-! DEFINITION. The Stream Buffer Manager (41_stream_buffer.md): `draw`, and the keystream of R91. -/

namespace Sys2Proof.Machine

/-- The block of counter `c` under the state's KEY, NONCE and SIGMA. -/
def blockAt (s : State) (c : Word) : Vector Byte 64 := block s.params.sigma s.key c s.nonce

/-- The refill of R87: at `CUR = 64`, the block of the present CTR into BUF, CTR up by 1 modulo 2^32 (R89), CUR to 0. -/
def refill (s : State) : State :=
  if s.cur.val = 64 then { s with buf := blockAt s s.ctr, ctr := s.ctr + 1, cur := 0 } else s

/-- `BUF[CUR .. CUR+m-1]`. -/
def bufferSlice (s : State) (m : Nat) : List Byte := (s.buf.toList.drop s.cur.val).take m

/-- `CUR <- CUR + m`, used only with `m ≤ 64 - CUR`, so that the sum is in 0..64. -/
def advance (m : Nat) (s : State) : State := { s with cur := Fin.ofNat 65 (s.cur.val + m) }

/-- The while loop of R87 with `n` bytes still wanted. Each pass delivers at least one byte, so `n` passes are enough
and `fuel := n` bounds nothing that the rule does (log 18). -/
def drawLoop : (fuel n : Nat) → State → List Byte × State
  | 0, _, s => ([], s)
  | fuel + 1, n, s =>
    if n = 0 then ([], s)
    else
      let s1 := refill s
      let m := min n (64 - s1.cur.val)
      let rest := drawLoop fuel (n - m) (advance m s1)
      (bufferSlice s1 m ++ rest.1, rest.2)

/-- `draw(n)`: the bytes, and the state after (R86, R87). -/
def draw (n : Nat) (s : State) : List Byte × State := drawLoop n n s

/-- Byte `i` of the keystream `KS` of a state (R91): what is left of BUF, then the blocks of CTR, CTR + 1, ... -/
def keystream (s : State) (i : Nat) : Byte :=
  if h : i < 64 - s.cur.val then s.buf[s.cur.val + i]
  else
    let j := i - (64 - s.cur.val)
    (blockAt s (s.ctr + BitVec.ofNat 32 (j / 64)))[j % 64]'(Nat.mod_lt _ (by decide))

/-- `KS[first .. first + n - 1]` (R91). -/
def keystreamWindow (s : State) (first n : Nat) : List Byte := (List.range n).map fun i => keystream s (first + i)

end Sys2Proof.Machine
end

