-- ==== Sys2Proof/Machine/Drbg.lean ====
section
/-! DEFINITION. The internal operations of the DRBG State Machine (42_drbg_commands.md R95, R96). -/

namespace Sys2Proof.Machine

/-- `rekey()` (R95): 44 bytes of the present keystream become KEY and NONCE; CTR, CUR, BUF and SCRATCH are reset. -/
def rekey (s : State) : State :=
  let d := draw 44 s
  let s1 := loadThroughScratch (toBytes 44 d.1) d.2
  { s1 with ctr := 0, cur := 64, buf := zeroBytes 64 }

/-- The additional input repeated as needed over 44 bytes: byte `i` is `A[i mod L]` (R96; log 19). -/
def cyclic (a : List Byte) : Vector Byte 44 := Vector.ofFn fun i => a.getD (i.val % a.length) 0

/-- `mix(A)` (R96): nothing at all when `A` is empty; else XOR into KEY and NONCE, and `CUR <- 64`. -/
def mix (a : List Byte) (s : State) : State :=
  if a.length = 0 then s
  else { loadThroughScratch (xorBytes (rep s) (cyclic a)) s with cur := 64 }

end Sys2Proof.Machine
end

