-- ==== Sys2Proof/Machine/Flags.lean ====
section
/-! DEFINITION. The fields of STATUS and the register's value (10_state.md R39). -/

namespace Sys2Proof.Machine

/-- STREAMING: `CUR < 64` (R29, R39, 90_conflicts.md C7). -/
def streaming (s : State) : Bool := decide (s.cur.val < 64)

/-- ERR: 0 when the last command was accepted, else its code (R39, R111). -/
def errBits (s : State) : BitVec 4 :=
  match s.err with
  | none => 0
  | some c => c.number

/-- The value of STATUS: bit 0 KEYED, bit 1 STREAMING, bit 2 STICKY, bits 7:4 ERR, every other bit 0 (R39). -/
def statusWord (s : State) : Word :=
  0#24 ++ errBits s ++ 0#1 ++ BitVec.ofBool s.sticky ++ BitVec.ofBool (streaming s) ++ BitVec.ofBool s.keyed

end Sys2Proof.Machine
end

