-- ==== Sys2Proof/Machine/Operands.lean ====
section
/-! DEFINITION. The operand forms of the commands (30_encoding.md R64). -/

namespace Sys2Proof.Machine

/-- The key of INIT: `WORDS(ARG[0..31])` (R97). -/
def seedKey (s : State) : Vector Word 8 := wordsAt s.arg 0 8

/-- The nonce of INIT: `WORDS(ARG[32..43])` (R97). -/
def seedNonce (s : State) : Vector Word 3 := wordsAt s.arg 32 3

/-- The seed of RESEED: `ARG[0..43]` (R98). -/
def reseedSeed (s : State) : Vector Byte 44 := s.arg

/-- The additional input of GENERATE: `ARG[0..ADDLEN-1]`, empty when ADDLEN = 0 (R64). -/
def additionalInput (addlen : BitVec 6) (s : State) : List Byte := s.arg.toList.take addlen.toNat

/-- The number of bytes GENERATE emits: OUTLEN, unsigned (R64). -/
def outputLength (outlen : Word) : Nat := outlen.toNat

end Sys2Proof.Machine
end

