-- ==== Sys2Proof/Machine/Commands.lean ====
section
/-! DEFINITION. The meanings of the five commands (42_drbg_commands.md R97 to R103), each with its checks
(60_exceptions.md R112) and its completion (R114, R115). -/

namespace Sys2Proof.Machine

/-- A command that R112 rejects with NOT_KEYED while KEYED = 0, and that has effect `f` otherwise. -/
def whenKeyed (f : State → State) (s : State) : Host.Outcome State Fault Refusal :=
  if s.keyed then .next (accept (f s)) else .next (reject .notKeyed s)

/-- The effect of INIT (R97). -/
def initEffect (s : State) : State :=
  rekey { s with key := seedKey s, nonce := seedNonce s, ctr := 0, buf := zeroBytes 64, cur := 64, keyed := true }

/-- INIT: accepted whether KEYED is 0 or 1 (R97). -/
def execInit (s : State) : Host.Outcome State Fault Refusal := .next (accept (initEffect s))

/-- The effect of RESEED (R98). -/
def reseedEffect (s : State) : State :=
  rekey { loadThroughScratch (xorBytes (rep s) (reseedSeed s)) s with cur := 64, ctr := 0 }

/-- RESEED (R98). -/
def execReseed (s : State) : Host.Outcome State Fault Refusal := whenKeyed reseedEffect s

/-- The effect of GENERATE: mix, stream, rekey, in this order (R99, R135). -/
def generateEffect (outlen : Word) (addlen : BitVec 6) (s : State) : State :=
  let s1 := mix (additionalInput addlen s) s
  let d := draw (outputLength outlen) s1
  rekey (emit d.1 d.2)

/-- GENERATE (R99). The decoder lets no ADDLEN above 44 through; given one all the same, BAD_ADDLEN comes before
NOT_KEYED (R113, log 13). -/
def execGenerate (outlen : Word) (addlen : BitVec 6) (s : State) : Host.Outcome State Fault Refusal :=
  if Config.addinMax < addlen.toNat then .next (reject .badAddlen s)
  else whenKeyed (generateEffect outlen addlen) s

/-- `LE32` of the first four bytes of a sequence (R14). -/
def firstWord (l : List Byte) : Word := le32 (l.getD 0 0) (l.getD 1 0) (l.getD 2 0) (l.getD 3 0)

/-- The effect of NEXTWORD32: four bytes of keystream to RESULT, no mix and no rekey (R102). -/
def nextwordEffect (s : State) : State :=
  let d := draw 4 s
  { d.2 with result := firstWord d.1 }

/-- NEXTWORD32 (R102). -/
def execNextword32 (s : State) : Host.Outcome State Fault Refusal := whenKeyed nextwordEffect s

/-- The effect of ZEROIZE: CMD_HI, STICKY and OUT stay (R103). -/
def zeroizeEffect (s : State) : State :=
  { s with
    key := Vector.replicate 8 0
    nonce := Vector.replicate 3 0
    ctr := 0
    buf := zeroBytes 64
    scratch := zeroBytes 44
    cur := 64
    keyed := false
    result := 0 }

/-- ZEROIZE: accepted whether KEYED is 0 or 1 (R103). -/
def execZeroize (s : State) : Host.Outcome State Fault Refusal := .next (accept (zeroizeEffect s))

end Sys2Proof.Machine
end

