-- ==== Sys2Proof/Machine/Dispatch.lean ====
section
/-! DEFINITION. One arm per command, each one direct call of its meaning. -/

namespace Sys2Proof.Machine

def exec (i : Instr) (s : State) : Host.Outcome State Fault Refusal :=
  match i with
  | .init => Sys2Proof.Machine.execInit s
  | .reseed => Sys2Proof.Machine.execReseed s
  | .generate outlen addlen => Sys2Proof.Machine.execGenerate outlen addlen s
  | .nextword32 => Sys2Proof.Machine.execNextword32 s
  | .zeroize => Sys2Proof.Machine.execZeroize s

end Sys2Proof.Machine
end

