-- ==== Sys2Proof/Machine/Access.lean ====
section
/-! DEFINITION. Host accesses (20_memory.md R42 to R49), the issuing of a command, and the taking of the next event. -/

namespace Sys2Proof.Machine

/-- The offset of a legal access, or why it is refused: one host (R55), 32 bits wide, inside the space, aligned (R45).
Where several reasons hold, the first in this order is named (log 8). -/
def resolve (p : Params) (a : Access) : Except Refusal Nat :=
  if a.agent = .other then .error .secondHost
  else if a.width ≠ 4 then .error .wrongWidth
  else if a.addr < p.base ∨ p.base + 0x100 ≤ a.addr then .error .outsideSpace
  else if (a.addr - p.base) % 4 ≠ 0 then .error .misaligned
  else .ok (a.addr - p.base)

/-- The register map (R43), for an aligned offset. -/
def regAt (off : Nat) : Reg :=
  if off = 0x00 then .cmdLo
  else if off = 0x04 then .cmdHi
  else if off = 0x08 then .status
  else if off = 0x0C then .result
  else if off < 0x3C then .arg (Fin.ofNat 11 ((off - 0x10) / 4))
  else if off < 0x80 then .reserved
  else if off < 0xA0 then .dbgKey (Fin.ofNat 8 ((off - 0x80) / 4))
  else if off < 0xAC then .dbgNonce (Fin.ofNat 3 ((off - 0xA0) / 4))
  else if off = 0xAC then .dbgCtr
  else if off = 0xB0 then .dbgCur
  else .reserved

/-- What the debug window shows of a word: the word under `TEST_HOOK = 1`, else 0 (10_state.md R40). -/
def debugView (s : State) (w : Word) : Word := if s.params.testHook then w else 0

/-- The value a read of a register returns (R43, R46). -/
def readReg (s : State) : Reg → Word
  | .cmdLo => 0
  | .cmdHi => s.cmdHi
  | .status => statusWord s
  | .result => s.result
  | .arg _ => 0
  | .dbgKey i => debugView s s.key[i]
  | .dbgNonce i => debugView s s.nonce[i]
  | .dbgCtr => debugView s s.ctr
  | .dbgCur => debugView s (BitVec.ofNat 32 s.cur.val)
  | .reserved => 0

/-- `ARG[4j..4j+3] <- LEBYTES(v)` (R44). -/
def writeArg (j : Fin 11) (v : Word) (s : State) : State :=
  { s with arg := Vector.ofFn fun i => if i.val / 4 = j.val then byteAt v (i.val % 4) else s.arg[i.val] }

/-- The command of a CMD_LO write of `v` (R49): decoded, and run or rejected, to completion, in one step. -/
def issueCommand (v : Word) (s : State) : Host.Outcome State Fault Refusal :=
  match decode (commandWord s.cmdHi v) with
  | .reject c => .next (reject c s)
  | .command i => exec i s

/-- A write of `v` to a register (R43, R46, R47). -/
def writeReg (s : State) (v : Word) : Reg → Host.Outcome State Fault Refusal
  | .cmdLo => issueCommand v s
  | .cmdHi => .next { s with cmdHi := v }
  | .status => .next s
  | .result => .next s
  | .arg j => .next (writeArg j v s)
  | .dbgKey _ => .next s
  | .dbgNonce _ => .next s
  | .dbgCtr => .next s
  | .dbgCur => .next s
  | .reserved => .next s

/-- One access: refused, or a read whose word goes to the host, or a write. -/
def runAccess (a : Access) (s : State) : Host.Outcome State Fault Refusal :=
  match resolve s.params a with
  | .error r => .refused r
  | .ok off =>
    match a.kind with
    | .read => .next { s with reads := s.reads ++ [readReg s (regAt off)] }
    | .write v => writeReg s v (regAt off)

/-- One event on the state it finds. -/
def runEvent (e : Event) (s : State) : Host.Outcome State Fault Refusal :=
  match e with
  | .access a => runAccess a s
  | .reset => .next (platformReset s)

/-- The next event, taken off the front of what is to come; with none to come the core waits and every piece of state
keeps its value (60_exceptions.md R126, log 6). -/
def runNext (s : State) : Host.Outcome State Fault Refusal :=
  match s.pending with
  | [] => .next s
  | e :: rest => runEvent e { s with pending := rest }

/-- A legal 32-bit write of the host at an offset (30_encoding.md R69, `WR off, v`). -/
def hostWrite (p : Params) (off : Nat) (v : Word) : Event := .access ⟨.host, p.base + off, 4, .write v⟩

/-- A legal 32-bit read of the host at an offset (30_encoding.md R69, `RD off`). -/
def hostRead (p : Params) (off : Nat) : Event := .access ⟨.host, p.base + off, 4, .read⟩

/-- The state whose next step issues the command word `cmd`: its high half in CMD_HI, and a CMD_LO write of its low
half as the next event (R61). -/
def placeCommand (cmd : BitVec 64) (s : State) : State :=
  { s with
    cmdHi := cmd.extractLsb' 32 32
    pending := hostWrite s.params 0x00 (cmd.extractLsb' 0 32) :: s.pending }

end Sys2Proof.Machine
end

