-- ==== Sys2Proof/Machine/HostProgram.lean ====
section
/-! DEFINITION. The host syntax and the pseudo-instructions (30_encoding.md R69 to R72), as the events they stand for. -/

namespace Sys2Proof.Machine

/-- A line of a host program: a base form (R69) or a pseudo-instruction (R70). -/
inductive HostLine where
  | wr (off : Nat) (v : Word)
  | rd (off : Nat)
  | init
  | reseed
  | generate (a : Nat)
  | nextword32
  | zeroize
  | loadarg (s : List Byte)
  | setlen (n : Word)
  | initk (key : Vector Byte 32) (nonce : Vector Byte 12)
  | reseeds (seed : Vector Byte 44)
  | gen (n : Word)
  | gena (n : Word) (a : List Byte)
  | initstream (key : Vector Byte 32) (id : BitVec 64)
  | selftest
  | readword
deriving DecidableEq, Repr

/-- The 11 writes of LOADARG, for a sequence of at most 44 bytes, with zeros after it (R70). -/
def loadArgWrites (p : Params) (s : List Byte) : List Event :=
  (List.range 11).map fun j =>
    hostWrite p (0x10 + 4 * j)
      (le32 (s.getD (4 * j) 0) (s.getD (4 * j + 1) 0) (s.getD (4 * j + 2) 0) (s.getD (4 * j + 3) 0))

/-- The nonce of INITSTREAM: the stream identifier, low word first, then "RGE1" (R70). -/
def streamNonce (id : BitVec 64) : List Byte :=
  leBytes (id.extractLsb' 0 32) ++ leBytes (id.extractLsb' 32 32) ++ [0x52, 0x47, 0x45, 0x31]

/-- The key of the self-test: 0x00..0x1F in order (R70). -/
def selfTestKey : List Byte := (List.range 32).map (BitVec.ofNat 8)

/-- The nonce of the self-test: 0x00..0x0B in order (R70). -/
def selfTestNonce : List Byte := (List.range 12).map (BitVec.ofNat 8)

/-- `INIT` as a write of CMD_LO (R69), and so on for the other commands. -/
def initWrite (p : Params) : Event := hostWrite p 0x00 (encodeLo .init)

/-- The CMD_LO write of `GENERATE a` (R69). -/
def generateWrite (p : Params) (a : Nat) : Event := hostWrite p 0x00 (0x00000003 + 16 * BitVec.ofNat 32 a)

/-- The events a line stands for; none where its operand is out of the range R69 and R70 give it. -/
def expand (p : Params) : HostLine → Option (List Event)
  | .wr off v => some [hostWrite p off v]
  | .rd off => some [hostRead p off]
  | .init => some [initWrite p]
  | .reseed => some [hostWrite p 0x00 (encodeLo .reseed)]
  | .generate a => if a ≤ Config.addinMax then some [generateWrite p a] else none
  | .nextword32 => some [hostWrite p 0x00 (encodeLo .nextword32)]
  | .zeroize => some [hostWrite p 0x00 (encodeLo .zeroize)]
  | .loadarg s => if s.length ≤ 44 then some (loadArgWrites p s) else none
  | .setlen n => some [hostWrite p 0x04 n]
  | .initk key nonce => some (loadArgWrites p (key.toList ++ nonce.toList) ++ [initWrite p])
  | .reseeds seed => some (loadArgWrites p seed.toList ++ [hostWrite p 0x00 (encodeLo .reseed)])
  | .gen n => some [hostWrite p 0x04 n, generateWrite p 0]
  | .gena n a =>
    if 1 ≤ a.length ∧ a.length ≤ Config.addinMax then
      some (loadArgWrites p a ++ [hostWrite p 0x04 n, generateWrite p a.length])
    else none
  | .initstream key id => some (loadArgWrites p (key.toList ++ streamNonce id) ++ [initWrite p])
  | .selftest =>
    some (loadArgWrites p (selfTestKey ++ selfTestNonce) ++ [initWrite p, hostWrite p 0x04 64, generateWrite p 0])
  | .readword => some [hostWrite p 0x00 (encodeLo .nextword32), hostRead p 0x0C]

/-- The events of a host program, its lines in order; none where a line has no expansion. -/
def assemble (p : Params) : List HostLine → Option (List Event)
  | [] => some []
  | l :: rest =>
    match expand p l, assemble p rest with
    | some es, some more => some (es ++ more)
    | _, _ => none

/-- The host's comparison at the end of SELFTEST: the 64 bytes the GENERATE emitted against `KAT_EXPECTED` (R70, R104).
A mismatch is fatal for the driver and no state of the core (60_exceptions.md R120). -/
def selfTestPasses (emitted : List Byte) : Bool := decide (emitted = Config.katExpected.toList)

end Sys2Proof.Machine
end

