-- ==== Sys2Proof/Safety.lean ====
section
/-! DEFINITION. The terms claims are stated in: legal accesses, the invariant of every command boundary, a sequence of
commands, and what a host may learn. -/

namespace Sys2Proof.Machine

/-- An access of this core (20_memory.md R45, R55). -/
def legalAccess (p : Params) (a : Access) : Bool :=
  decide (a.agent = .host ∧ a.width = 4 ∧ p.base ≤ a.addr ∧ a.addr < p.base + 0x100 ∧ (a.addr - p.base) % 4 = 0)

/-- An event the core has a step for: the platform's reset, or a legal access. -/
def legalEvent (p : Params) : Event → Bool
  | .access a => legalAccess p a
  | .reset => true

/-- While KEYED = 0 the core state is at its reset value, RESULT with it (10_state.md R25, R41; 42_drbg_commands.md
R103). -/
abbrev UnkeyedIsBlank (s : State) : Prop :=
  s.keyed = false →
    s.key = Vector.replicate 8 0 ∧ s.nonce = Vector.replicate 3 0 ∧ s.ctr = 0 ∧ s.buf = zeroBytes 64 ∧ s.cur = 64 ∧
      s.result = 0

/-- The invariant of every command boundary: CUR a multiple of 4 in 4..64 (10_state.md R28), SCRATCH zero (R26), an
unkeyed core blank, and a recorded code seen by STICKY (60_exceptions.md R115). -/
abbrev Inv (s : State) : Prop :=
  4 ≤ s.cur.val ∧ s.cur.val % 4 = 0 ∧ s.scratch = zeroBytes 44 ∧ UnkeyedIsBlank s ∧
    (s.err ≠ none → s.sticky = true)

/-- Commands one after the other, stopping where one gives no next state. -/
def execAll : List Instr → State → Host.Outcome State Fault Refusal
  | [], s => .next s
  | i :: rest, s =>
    match exec i s with
    | .next t => execAll rest t
    | .fault f => .fault f
    | .refused r => .refused r

/-- The bytes of an `n`-byte read of the keystream, as KEY and NONCE (42_drbg_commands.md R95). -/
def keyOf (l : List Byte) : Vector Word 8 := wordsAt (toBytes 44 l) 0 8

/-- See `keyOf`. -/
def nonceOf (l : List Byte) : Vector Word 3 := wordsAt (toBytes 44 l) 32 3

/-- Two states that agree on everything a host may read while `TEST_HOOK = 0` (60_exceptions.md R121): KEY, NONCE, CTR,
BUF, SCRATCH, ARG and the exact CUR may differ. -/
abbrev PublicAgree (s t : State) : Prop :=
  s.keyed = t.keyed ∧ streaming s = streaming t ∧ s.sticky = t.sticky ∧ s.err = t.err ∧ s.cmdHi = t.cmdHi ∧
    s.result = t.result ∧ s.params = t.params ∧ s.reads = t.reads ∧ s.pending = t.pending

end Sys2Proof.Machine
end

