-- ==== Sys2Proof/Certificates/Slice0/Obligations.lean ====
section
/-! DEFINITION. The statements about the RGE256 core, from the numbered rules of spec/.

In every statement the fields `pending` and `reads` are the model's own (what is to come from outside, log 5; the words
host reads returned, log 7), and `params` holds the parameters the spec leaves open (logs 1 to 3); where a statement
says that they stay, that is the model's frame for them and no clause of the rule it cites. -/

open Sys2Proof Sys2Proof.Machine

/-! ### Reset -/

/-- 10_state.md R41: the reset value of every piece of state, for any parameters. -/
def Obligations.ResetLeavesTheTableOfValues : Prop :=
  ∀ p : Params,
    (State.resetWith p).key = Vector.replicate 8 0 ∧ (State.resetWith p).nonce = Vector.replicate 3 0 ∧
    (State.resetWith p).ctr = 0 ∧ (State.resetWith p).buf = Vector.replicate 64 0 ∧
    (State.resetWith p).cur = 64 ∧ (State.resetWith p).keyed = false ∧
    (State.resetWith p).scratch = Vector.replicate 44 0 ∧ (State.resetWith p).cmdHi = 0 ∧
    (State.resetWith p).arg = Vector.replicate 44 0 ∧ (State.resetWith p).result = 0 ∧
    (State.resetWith p).sticky = false ∧ (State.resetWith p).err = none ∧ (State.resetWith p).out = []

/-- 70_reset_and_hazards.md R127: a later reset gives the power-on state, from every state, in one step. That OUT and
the read log start anew, and that what is still to come stays, is the model's choice (log 9). -/
def Obligations.LaterResetEqualsPowerOn : Prop :=
  ∀ (s : State) (rest : List Event), s.pending = .reset :: rest →
    step s = .next { State.resetWith s.params with pending := rest }

/-- 70_reset_and_hazards.md R128: KEYED = 0 after reset, and while KEYED = 0 INIT and ZEROIZE are accepted and the
other three are rejected with NOT_KEYED. -/
def Obligations.UnkeyedAcceptsOnlyInitAndZeroize : Prop :=
  (∀ p : Params, (State.resetWith p).keyed = false) ∧
  ∀ (s : State) (i : Instr), s.keyed = false → i.wf = true →
    ∃ t, exec i s = .next t ∧ (t.err = none ↔ i = .init ∨ i = .zeroize) ∧
      (t.err = some .notKeyed ↔ ¬(i = .init ∨ i = .zeroize))

/-! ### The command word -/

/-- 30_encoding.md R72: worked encodings of the five commands, and the three worked rejections. -/
def Obligations.WorkedEncodingsDecode : Prop :=
  (∀ hi : Word, decode (commandWord hi 0x00000001) = .command .init) ∧
  (∀ hi : Word, decode (commandWord hi 0x00000002) = .command .reseed) ∧
  decode 0x0000004000000003 = .command (.generate 64 0) ∧
  decode 0x0000000A000002C3 = .command (.generate 10 44) ∧
  decode 0x0000000000000013 = .command (.generate 0 1) ∧
  (∀ hi : Word, decode (commandWord hi 0x00000004) = .command .nextword32) ∧
  (∀ hi : Word, decode (commandWord hi 0x00000005) = .command .zeroize) ∧
  (∀ hi : Word, decode (commandWord hi 0x000002D3) = .reject .badAddlen) ∧
  (∀ hi : Word, decode (commandWord hi 0x00000011) = .reject .reservedField) ∧
  (∀ hi : Word, decode (commandWord hi 0x00000000) = .reject .illegalOp)

/-- 30_encoding.md R62, R63, R67: decoding an encoded well-formed command gives it back, with every operand and with
every value of the bits that format N ignores. -/
def Obligations.DecodeOfEncodeIsTheCommand : Prop :=
  ∀ (i : Instr) (ignored : Word), i.wf = true → decode (encodeWith ignored i) = .command i

/-- 30_encoding.md R62, R63, R67: the other direction; a word that decodes to a command is that command's encoding,
with the ignored bits as they stand in the word, and the command is well-formed. -/
def Obligations.DecodedWordIsItsEncoding : Prop :=
  ∀ (cmd : BitVec 64) (i : Instr), decode cmd = .command i →
    i.wf = true ∧ encodeWith (outlenField cmd) i = cmd

/-- 30_encoding.md R66: the match patterns over `cmd[31:0]`, and rejection of every word that matches no row. -/
def Obligations.MatchPatternsDecideTheCommand : Prop :=
  ∀ hi lo : Word,
    (decode (commandWord hi lo) = .command .init ↔ lo &&& 0xFFFFFFFF = 0x00000001) ∧
    (decode (commandWord hi lo) = .command .reseed ↔ lo &&& 0xFFFFFFFF = 0x00000002) ∧
    (∀ (o : Word) (a : BitVec 6), decode (commandWord hi lo) = .command (.generate o a) ↔
      lo &&& 0xFFFFFC0F = 0x00000003 ∧ a.toNat ≤ 44 ∧ o = hi ∧ a = lo.extractLsb' 4 6) ∧
    (decode (commandWord hi lo) = .command .nextword32 ↔ lo &&& 0xFFFFFFFF = 0x00000004) ∧
    (decode (commandWord hi lo) = .command .zeroize ↔ lo &&& 0xFFFFFFFF = 0x00000005) ∧
    ((∃ c, decode (commandWord hi lo) = .reject c) ↔
      lo ≠ 1 ∧ lo ≠ 2 ∧ lo ≠ 4 ∧ lo ≠ 5 ∧ ¬(lo &&& 0xFFFFFC0F = 0x00000003 ∧ (lo.extractLsb' 4 6).toNat ≤ 44))

/-- 60_exceptions.md R112, R113: which code a word is rejected with, each cause behind the ones before it, read off
the word as a number; and an accepted word is accepted as the command it decodes to. -/
def Obligations.RejectionCodeFollowsThePriority : Prop :=
  ∀ (hi lo : Word) (keyed : Bool),
    let op := lo.toNat % 16
    let add := lo.toNat / 16 % 64
    let illegal := op = 0 ∨ 6 ≤ op
    let reserved := (op = 3 ∧ lo.toNat / 1024 ≠ 0) ∨ (op ≠ 3 ∧ lo.toNat / 16 ≠ 0)
    let long := op = 3 ∧ 45 ≤ add
    let locked := (op = 2 ∨ op = 3 ∨ op = 4) ∧ keyed = false
    (check (commandWord hi lo) keyed = .reject .illegalOp ↔ illegal) ∧
    (check (commandWord hi lo) keyed = .reject .reservedField ↔ ¬illegal ∧ reserved) ∧
    (check (commandWord hi lo) keyed = .reject .badAddlen ↔ ¬illegal ∧ ¬reserved ∧ long) ∧
    (check (commandWord hi lo) keyed = .reject .notKeyed ↔ ¬illegal ∧ ¬reserved ∧ ¬long ∧ locked) ∧
    ((∃ i, check (commandWord hi lo) keyed = .command i) ↔ ¬illegal ∧ ¬reserved ∧ ¬long ∧ ¬locked) ∧
    (∀ i, check (commandWord hi lo) keyed = .command i → decode (commandWord hi lo) = .command i)

/-! ### The step -/

/-- 20_memory.md R49: a CMD_LO write whose word decodes to `i` steps exactly as `exec i` on the state with that event
taken off. -/
def Obligations.CommandWriteRunsTheDecodedCommand : Prop :=
  ∀ (s : State) (v : Word) (rest : List Event) (i : Instr),
    s.pending = hostWrite s.params 0x00 v :: rest → decode (commandWord s.cmdHi v) = .command i →
      step s = exec i { s with pending := rest }

/-- 60_exceptions.md R115: a rejected command writes ERR, STICKY and ARG and nothing else. -/
def Obligations.RejectedCommandOnlyRecordsItsCode : Prop :=
  ∀ (s : State) (v : Word) (rest : List Event) (c : RejectCode),
    s.pending = hostWrite s.params 0x00 v :: rest → check (commandWord s.cmdHi v) s.keyed = .reject c →
      step s = .next { s with pending := rest, err := some c, sticky := true, arg := Vector.replicate 44 0 }

/-- 60_exceptions.md R114: an accepted command completes, with ERR 0, ARG zero and STICKY as it was. -/
def Obligations.AcceptedCommandCompletes : Prop :=
  ∀ (s : State) (v : Word) (rest : List Event) (i : Instr),
    s.pending = hostWrite s.params 0x00 v :: rest → check (commandWord s.cmdHi v) s.keyed = .command i →
      ∃ t, step s = .next t ∧ t.err = none ∧ t.arg = Vector.replicate 44 0 ∧ t.sticky = s.sticky

/-- 60_exceptions.md R126 and 70_reset_and_hazards.md R127: with nothing to come the core waits (the model's reading,
log 6). -/
def Obligations.IdleCoreKeepsEverything : Prop :=
  ∀ s : State, s.pending = [] → step s = .next s

/-- 60_exceptions.md R110 with 20_memory.md R45, R55: a legal event always completes, and the only steps without a next
state are refusals of accesses that are not accesses of this core. -/
def Obligations.OnlyIllegalAccessesAreRefused : Prop :=
  ∀ (s : State) (e : Event) (rest : List Event), s.pending = e :: rest →
    (legalEvent s.params e = true → ∃ t, step s = .next t) ∧
    (legalEvent s.params e = false → ∃ r, step s = .refused r)

/-! ### The commands -/

/-- 42_drbg_commands.md R97: INIT, OP 1, accepted in every state, with its result and its frame. -/
def Obligations.InitInstallsTheFirstBlock : Prop :=
  ∀ s : State,
    let b := block s.params.sigma (wordsAt s.arg 0 8) 0 (wordsAt s.arg 32 3)
    (∀ hi : Word, check (commandWord hi 0x00000001) s.keyed = .command .init) ∧
    exec .init s = .next { s with
      key := wordsAt b 0 8, nonce := wordsAt b 32 3, ctr := 0, cur := 64, buf := Vector.replicate 64 0, keyed := true,
      scratch := Vector.replicate 44 0, err := none, arg := Vector.replicate 44 0 }

/-- 42_drbg_commands.md R98: RESEED, OP 2, on a keyed core, with its result and its frame; on an unkeyed one its word
is checked to NOT_KEYED. -/
def Obligations.ReseedMixesAndRekeys : Prop :=
  (∀ hi : Word, check (commandWord hi 0x00000002) false = .reject .notKeyed ∧
    check (commandWord hi 0x00000002) true = .command .reseed) ∧
  ∀ s : State, s.keyed = true →
    let k := Vector.zipWith (· ^^^ ·) s.key (wordsAt s.arg 0 8)
    let n := Vector.zipWith (· ^^^ ·) s.nonce (wordsAt s.arg 32 3)
    let b := block s.params.sigma k 0 n
    exec .reseed s = .next { s with
      key := wordsAt b 0 8, nonce := wordsAt b 32 3, ctr := 0, cur := 64, buf := Vector.replicate 64 0,
      scratch := Vector.replicate 44 0, err := none, arg := Vector.replicate 44 0 }

/-- 42_drbg_commands.md R99, R100: GENERATE on a keyed core, for every OUTLEN and every legal ADDLEN: output bytes and
rekey bytes are consecutive windows of one keystream, that of the state after `mix`; with its frame. -/
def Obligations.GenerateEmitsThenRekeysFromOneKeystream : Prop :=
  ∀ (s : State) (outlen : Word) (addlen : BitVec 6), s.keyed = true → addlen.toNat ≤ 44 →
    let m := mix (s.arg.toList.take addlen.toNat) s
    exec (.generate outlen addlen) s = .next { s with
      out := s.out ++ keystreamWindow m 0 outlen.toNat,
      key := keyOf (keystreamWindow m outlen.toNat 44), nonce := nonceOf (keystreamWindow m outlen.toNat 44),
      ctr := 0, cur := 64, buf := Vector.replicate 64 0,
      scratch := Vector.replicate 44 0, err := none, arg := Vector.replicate 44 0 } ∧
    (addlen.toNat = 0 → m = s) ∧ (addlen.toNat ≠ 0 → m.cur = 64 ∧ m.ctr = s.ctr)

/-- 42_drbg_commands.md R102: NEXTWORD32, OP 4, on a keyed core, for every CUR: the next four bytes of the keystream
to RESULT, CTR and BUF moved by a refill only, KEY and NONCE unchanged; with its frame; on an unkeyed core its word is
checked to NOT_KEYED. -/
def Obligations.NextwordReturnsFourKeystreamBytes : Prop :=
  (∀ hi : Word, check (commandWord hi 0x00000004) false = .reject .notKeyed ∧
    check (commandWord hi 0x00000004) true = .command .nextword32) ∧
  ∀ s : State, s.keyed = true →
    let w := le32 (keystream s 0) (keystream s 1) (keystream s 2) (keystream s 3)
    (s.cur.val ≤ 60 → exec .nextword32 s = .next { s with
      result := w, cur := Fin.ofNat 65 (s.cur.val + 4), err := none, arg := Vector.replicate 44 0 }) ∧
    (60 < s.cur.val → exec .nextword32 s = .next { s with
      result := w, cur := Fin.ofNat 65 (s.cur.val - 60), ctr := s.ctr + 1,
      buf := block s.params.sigma s.key s.ctr s.nonce, err := none, arg := Vector.replicate 44 0 })

/-- 42_drbg_commands.md R103: ZEROIZE, OP 5, accepted in every state: the reset state but for CMD_HI and STICKY, and for what
was delivered or is still to come. -/
def Obligations.ZeroizeLeavesTheResetState : Prop :=
  ∀ s : State, (∀ hi : Word, check (commandWord hi 0x00000005) s.keyed = .command .zeroize) ∧
    exec .zeroize s = .next { State.resetWith s.params with
    cmdHi := s.cmdHi, sticky := s.sticky, out := s.out, pending := s.pending, reads := s.reads }

/-- 60_exceptions.md R111 (code 4): RESEED, GENERATE and NEXTWORD32 on an unkeyed core take the rejection, with its
frame. -/
def Obligations.UnkeyedCommandsTakeNotKeyed : Prop :=
  ∀ (s : State) (outlen : Word) (addlen : BitVec 6), s.keyed = false → addlen.toNat ≤ 44 →
    ∀ i ∈ [Instr.reseed, Instr.generate outlen addlen, Instr.nextword32],
      exec i s = .next { s with err := some .notKeyed, sticky := true, arg := Vector.replicate 44 0 }

/-- 41_stream_buffer.md R89 at a command: NEXTWORD32 at the highest counter wraps it to 0 and records nothing. -/
def Obligations.CounterWrapIsSilent : Prop :=
  ∀ s : State, s.keyed = true → s.cur = 64 → s.ctr = 0xFFFFFFFF →
    ∃ t, exec .nextword32 s = .next t ∧ t.ctr = 0 ∧ t.buf = block s.params.sigma s.key 0xFFFFFFFF s.nonce ∧
      t.err = none ∧ t.sticky = s.sticky

/-- 10_state.md R28: under the invariant a NEXTWORD32 takes its four bytes from one block. -/
def Obligations.NextwordStaysInsideOneBlock : Prop :=
  ∀ s : State, Inv s → s.keyed = true →
    ∃ t b, exec .nextword32 s = .next t ∧ (b = s.buf ∨ b = block s.params.sigma s.key s.ctr s.nonce) ∧
      ∃ (u : Nat) (h : u + 3 < 64), t.result = le32 b[u] b[u + 1] b[u + 2] b[u + 3] ∧ t.cur.val = u + 4

/-- 42_drbg_commands.md R109 and 41_stream_buffer.md R91: any run of NEXTWORD32 keeps KEY and NONCE and emits nothing,
and its k-th word is the k-th four bytes of the keystream. -/
def Obligations.NextwordRunsKeepKeyAndWalkTheKeystream : Prop :=
  ∀ (s : State) (k : Nat), s.keyed = true →
    ∃ t, execAll (List.replicate k .nextword32) s = .next t ∧ t.key = s.key ∧ t.nonce = s.nonce ∧ t.out = s.out ∧
      t.keyed = true ∧
      (k ≠ 0 → t.result = le32 (keystream s (4 * (k - 1))) (keystream s (4 * (k - 1) + 1))
        (keystream s (4 * (k - 1) + 2)) (keystream s (4 * (k - 1) + 3)))

/-- 42_drbg_commands.md R101: from CUR = 64 and CTR = 0, GENERATE of no byte and no input leaves the state that RESEED
with a zero seed leaves. -/
def Obligations.EmptyGenerateEqualsZeroReseed : Prop :=
  ∀ s : State, s.cur = 64 → s.ctr = 0 →
    exec (.generate 0 0) s = exec .reseed { s with arg := Vector.replicate 44 0 }

/-- 42_drbg_commands.md R108, 90_conflicts.md C4: with CUR = 64, an all-zero additional input changes nothing. -/
def Obligations.ZeroInputAtBlockEndIsNoInput : Prop :=
  ∀ (s : State) (outlen : Word) (addlen : BitVec 6), s.cur = 64 → addlen.toNat ≤ 44 →
    (∀ b ∈ s.arg.toList.take addlen.toNat, b = 0) →
      exec (.generate outlen addlen) s = exec (.generate outlen 0) s

/-- 42_drbg_commands.md R106: from one state, a shorter GENERATE emits a prefix of what a longer one emits. -/
def Obligations.ShorterGenerateEmitsAPrefix : Prop :=
  ∀ (s t u : State) (n m : Word), s.keyed = true → n.toNat ≤ m.toNat →
    exec (.generate n 0) s = .next t → exec (.generate m 0) s = .next u →
      ∃ more, u.out = t.out ++ more ∧ more.length = m.toNat - n.toNat

/-! ### What every command keeps -/

/-- 10_state.md R33, 00_scope.md R10: no command writes CMD_HI, nor a parameter, nor what is to come. -/
def Obligations.CommandsKeepHighWordAndParameters : Prop :=
  ∀ (i : Instr) (s t : State), exec i s = .next t →
    t.cmdHi = s.cmdHi ∧ t.params = s.params ∧ t.pending = s.pending ∧ t.reads = s.reads

/-- 10_state.md R38: only GENERATE appends to OUT, and it only appends. -/
def Obligations.OnlyGenerateAppendsToOut : Prop :=
  ∀ (i : Instr) (s t : State), exec i s = .next t →
    (∃ more, t.out = s.out ++ more) ∧ ((∀ o a, i ≠ .generate o a) → t.out = s.out)

/-- 10_state.md R37: only NEXTWORD32 and ZEROIZE write RESULT, ZEROIZE to 0. -/
def Obligations.OnlyNextwordAndZeroizeWriteResult : Prop :=
  ∀ (i : Instr) (s t : State), exec i s = .next t →
    (i ≠ .nextword32 → i ≠ .zeroize → t.result = s.result) ∧ (i = .zeroize → t.result = 0)

/-- 10_state.md R25: KEYED after a command: 1 after INIT, 0 after ZEROIZE, as before after the others. -/
def Obligations.KeyedChangesByInitAndZeroizeOnly : Prop :=
  ∀ (i : Instr) (s t : State), exec i s = .next t →
    (i = .init → t.keyed = true) ∧ (i = .zeroize → t.keyed = false) ∧
      (i ≠ .init → i ≠ .zeroize → t.keyed = s.keyed)

/-- 10_state.md R35: every command, accepted or rejected, clears every byte of ARG. -/
def Obligations.EveryCommandClearsArg : Prop :=
  ∀ (s : State) (v : Word) (rest : List Event), s.pending = hostWrite s.params 0x00 v :: rest →
    ∃ t, step s = .next t ∧ ∀ i : Fin 44, t.arg[i] = 0

/-! ### The internal operations -/

/-- 41_stream_buffer.md R91: a draw returns the first bytes of the keystream, and a second draw the bytes after them. -/
def Obligations.DrawReadsTheKeystream : Prop :=
  ∀ (s : State) (n m : Nat),
    (draw n s).1 = keystreamWindow s 0 n ∧ (draw m (draw n s).2).1 = keystreamWindow s n m

/-- 41_stream_buffer.md R92: the state a draw leaves, in both cases. -/
def Obligations.DrawLeavesTheStatedCursor : Prop :=
  ∀ (s : State) (n : Nat),
    let r := 64 - s.cur.val
    let b := (n - r + 63) / 64
    (n ≤ r → (draw n s).2 = { s with cur := Fin.ofNat 65 (s.cur.val + n) }) ∧
    (r < n → (draw n s).2 = { s with
      ctr := s.ctr + BitVec.ofNat 32 b
      buf := block s.params.sigma s.key (s.ctr + BitVec.ofNat 32 (b - 1)) s.nonce
      cur := Fin.ofNat 65 (n - r - 64 * (b - 1)) } ∧
      1 ≤ n - r - 64 * (b - 1) ∧ n - r - 64 * (b - 1) ≤ 64)

/-- 42_drbg_commands.md R95: what `rekey` leaves. -/
def Obligations.RekeyInstallsTheNextBytes : Prop :=
  ∀ s : State, rekey s = { s with
    key := keyOf (keystreamWindow s 0 44), nonce := nonceOf (keystreamWindow s 0 44), ctr := 0, cur := 64,
    buf := Vector.replicate 64 0, scratch := Vector.replicate 44 0 }

/-- 42_drbg_commands.md R96, for inputs of 0 to 44 bytes: `mix` on an empty and on a nonempty input, byte by byte, with
its frame. Beyond 44 bytes, where the spec gives `mix` no meaning (91_not_in_source.md N12, 92_eei_decisions.md D5), the
statement is the model's choice (log 19). -/
def Obligations.MixXorsTheRepeatedInput : Prop :=
  ∀ (s : State) (a : List Byte),
    (a = [] → mix a s = s) ∧
    (∀ h : a ≠ [],
      (∀ i : Fin 44, (rep (mix a s))[i] = (rep s)[i] ^^^
        a[i.val % a.length]'(Nat.mod_lt _ (List.length_pos_iff.mpr h))) ∧
      mix a s = { s with
        key := (mix a s).key, nonce := (mix a s).nonce, cur := 64, scratch := Vector.replicate 44 0 })

/-- 00_scope.md R15, 20_memory.md R51: REP and LOADREP undo each other, and byte `4i + j` of REP is byte `j` of word
`i`. -/
def Obligations.RepAndLoadrepAreInverse : Prop :=
  ∀ (s : State) (r : Vector Byte 44),
    rep (loadRep r s) = r ∧ loadRep (rep s) s = s ∧
    (∀ (i : Fin 8) (j : Fin 4), (rep s)[4 * i.val + j.val] = s.key[i].extractLsb' (8 * j.val) 8) ∧
    (∀ (i : Fin 3) (j : Fin 4), (rep s)[32 + 4 * i.val + j.val] = s.nonce[i].extractLsb' (8 * j.val) 8)

/-- 40_block_transform.md R79: within a round the four index sets are pairwise disjoint and the order of the four
quarter-rounds does not change the result; between the two rounds of a double-round, column first, the order matters. -/
def Obligations.QuarterRoundOrderInARoundIsFree : Prop :=
  ∀ (x : Vector Word 16) (order : List Quad),
    (order.Perm columnQuads → order.foldl quarterAt x = columnRound x) ∧
    (order.Perm diagonalQuads → order.foldl quarterAt x = diagonalRound x) ∧
    (∀ round ∈ [columnQuads, diagonalQuads], round.Pairwise fun p q => ∀ i ∈ [p.a, p.b, p.c, p.d], i ∉ [q.a, q.b, q.c, q.d]) ∧
    doubleRound x = diagonalRound (columnRound x) ∧
    (∃ y, columnRound (diagonalRound y) ≠ diagonalRound (columnRound y))

/-- 40_block_transform.md R75, R81, R82: the slots of the initial state, the feed-forward, and the serialisation. -/
def Obligations.BlockFeedsForwardAndSerialises : Prop :=
  ∀ (sigma : Vector Word 4) (k : Vector Word 8) (c : Word) (n : Vector Word 3),
    (∀ i : Fin 4, (initialState sigma k c n)[i.val] = sigma[i]) ∧
    (∀ i : Fin 8, (initialState sigma k c n)[4 + i.val] = k[i]) ∧
    (initialState sigma k c n)[12] = c ∧
    (∀ i : Fin 3, (initialState sigma k c n)[13 + i.val] = n[i]) ∧
    (∀ (i : Fin 16) (j : Fin 4), (block sigma k c n)[4 * i.val + j.val] =
      ((doubleRounds 10 (initialState sigma k c n))[i] + (initialState sigma k c n)[i]).extractLsb' (8 * j.val) 8)

/-! ### Host accesses -/

/-- 20_memory.md R44: the byte lanes of an ARG write, and nothing else changed; the word INIT reads there is the word
written. -/
def Obligations.ArgWriteFillsItsLanes : Prop :=
  ∀ (s : State) (j : Fin 11) (v : Word) (rest : List Event),
    s.pending = hostWrite s.params (0x10 + 4 * j.val) v :: rest →
      ∃ t, step s = .next t ∧ t = { s with pending := rest, arg := t.arg } ∧
        t.arg[4 * j.val] = v.extractLsb' 0 8 ∧ t.arg[4 * j.val + 1] = v.extractLsb' 8 8 ∧
        t.arg[4 * j.val + 2] = v.extractLsb' 16 8 ∧ t.arg[4 * j.val + 3] = v.extractLsb' 24 8 ∧
        (∀ i : Fin 44, i.val / 4 ≠ j.val → t.arg[i] = s.arg[i]) ∧
        (∀ h : j.val < 8, (seedKey t)[j.val] = v) ∧ (∀ h : 8 ≤ j.val, (seedNonce t)[j.val - 8] = v)

/-- 30_encoding.md R70, 20_memory.md R44: the 11 writes of LOADARG, taken in order, leave the sequence, filled up with
zeros, in ARG, and change nothing else. -/
def Obligations.LoadargFillsTheOperandWindow : Prop :=
  ∀ (s : State) (bytes : List Byte) (rest : List Event), bytes.length ≤ 44 →
    s.pending = loadArgWrites s.params bytes ++ rest →
      Sys2Proof.core.run 11 s = .next { s with pending := rest, arg := toBytes 44 bytes }

/-- 20_memory.md R46, R47: a CMD_HI write stores its value and nothing else; a write to a read-only or reserved offset
has no effect. -/
def Obligations.OtherWritesStoreOrDoNothing : Prop :=
  ∀ (s : State) (v : Word) (rest : List Event),
    (s.pending = hostWrite s.params 0x04 v :: rest → step s = .next { s with pending := rest, cmdHi := v }) ∧
    (∀ off, off % 4 = 0 → (off = 0x08 ∨ off = 0x0C ∨ (0x3C ≤ off ∧ off < 0x100)) →
      s.pending = hostWrite s.params off v :: rest → step s = .next { s with pending := rest })

/-- 20_memory.md R43, R46, R47: what a read of each offset returns; a read changes nothing of the core. -/
def Obligations.ReadsReturnTheRegisterMap : Prop :=
  ∀ (s : State) (off : Nat) (rest : List Event), off % 4 = 0 → off < 0x100 →
    s.pending = hostRead s.params off :: rest →
      ∃ w, step s = .next { s with pending := rest, reads := s.reads ++ [w] } ∧
        (off = 0x00 → w = 0) ∧ (off = 0x04 → w = s.cmdHi) ∧ (off = 0x08 → w = statusWord s) ∧
        (off = 0x0C → w = s.result) ∧ (0x10 ≤ off → off < 0x80 → w = 0) ∧
        (∀ i : Fin 8, off = 0x80 + 4 * i.val → w = if s.params.testHook then s.key[i] else 0) ∧
        (∀ i : Fin 3, off = 0xA0 + 4 * i.val → w = if s.params.testHook then s.nonce[i] else 0) ∧
        (off = 0xAC → w = if s.params.testHook then s.ctr else 0) ∧
        (off = 0xB0 → w = if s.params.testHook then BitVec.ofNat 32 s.cur.val else 0) ∧
        (0xB4 ≤ off → w = 0)

/-- 20_memory.md R47: two reads with nothing between them return the same word. -/
def Obligations.RepeatedReadsAgree : Prop :=
  ∀ (s t u : State) (off : Nat) (rest : List Event),
    s.pending = hostRead s.params off :: hostRead s.params off :: rest →
      step s = .next t → step t = .next u → ∃ w, u.reads = s.reads ++ [w, w]

/-- 10_state.md R39: the fields of STATUS. -/
def Obligations.StatusHoldsItsFields : Prop :=
  ∀ s : State,
    (statusWord s).getLsbD 0 = s.keyed ∧ (statusWord s).getLsbD 1 = decide (s.cur.val < 64) ∧
    (statusWord s).getLsbD 2 = s.sticky ∧ (statusWord s).getLsbD 3 = false ∧
    (∀ i, 8 ≤ i → (statusWord s).getLsbD i = false) ∧
    ((statusWord s).extractLsb' 4 4).toNat = (match s.err with
      | none => 0
      | some .illegalOp => 1
      | some .reservedField => 2
      | some .badAddlen => 3
      | some .notKeyed => 4)

/-- 10_state.md R40, 60_exceptions.md R121: with TEST_HOOK = 0, no read tells two states apart that agree on what is
public: KEY, NONCE, CTR and CUR stay unreadable. -/
def Obligations.HiddenStateIsUnreadable : Prop :=
  ∀ (s t : State) (off : Nat) (rest : List Event), s.params.testHook = false → PublicAgree s t →
    s.pending = hostRead s.params off :: rest →
      ∀ s' t', step s = .next s' → step t = .next t' → s'.reads = t'.reads ∧ PublicAgree s' t'

/-! ### What every step keeps -/

/-- 10_state.md R26, R28, R41: every step keeps the invariant. -/
def Obligations.EveryStepKeepsTheInvariant : Prop :=
  ∀ s t : State, Inv s → step s = .next t → Inv t

/-- The invariant holds after reset, for all parameters. -/
def Obligations.ResetMeetsTheInvariant : Prop :=
  ∀ p : Params, Inv (State.resetWith p)

/-- 70_reset_and_hazards.md R129: STICKY, once set, stays set until reset (by INIT and ZEROIZE too), and reset clears
it. -/
def Obligations.StickyIsClearedOnlyByReset : Prop :=
  ∀ s t : State, step s = .next t →
    (s.pending.head? ≠ some .reset → s.sticky = true → t.sticky = true) ∧
    (s.pending.head? = some .reset → t.sticky = false)

/-- 00_scope.md R10: no step changes a parameter. -/
def Obligations.ParametersNeverChange : Prop :=
  ∀ s t : State, step s = .next t → t.params = s.params

/-- 60_exceptions.md R126, 20_memory.md R47: between commands the core state stands still; only a CMD_LO write or a
reset moves it, or RESULT, OUT, STICKY, ERR. -/
def Obligations.CoreStateMovesOnlyByCommandOrReset : Prop :=
  ∀ (s t : State) (e : Event) (rest : List Event), s.pending = e :: rest → e ≠ .reset →
    (∀ v, e ≠ hostWrite s.params 0x00 v) → step s = .next t →
      t.key = s.key ∧ t.nonce = s.nonce ∧ t.ctr = s.ctr ∧ t.buf = s.buf ∧ t.cur = s.cur ∧ t.keyed = s.keyed ∧
      t.scratch = s.scratch ∧ t.result = s.result ∧ t.out = s.out ∧ t.sticky = s.sticky ∧ t.err = s.err

/-- 41_stream_buffer.md R90, 90_conflicts.md C2: across a step CTR stays, or counts one block, or is reset to 0. -/
def Obligations.CounterStaysCountsOrResets : Prop :=
  ∀ s t : State, step s = .next t → t.ctr = s.ctr ∨ t.ctr = s.ctr + 1 ∨ t.ctr = 0

/-- 70_reset_and_hazards.md R128, R130: until a reset, no step of an unkeyed core emits a byte, nor gives RESULT a word
of keystream. -/
def Obligations.UnkeyedCoreEmitsNothing : Prop :=
  ∀ s t : State, s.keyed = false → s.pending.head? ≠ some .reset → step s = .next t →
    t.out = s.out ∧ (t.result = s.result ∨ t.result = 0)
end

