-- ==== Sys2Proof/Laws/Bytes.lean ====
section
/-! SUPPORT. The byte-order operations undo each other, and commute with exclusive or (00_scope.md R14). -/

namespace Sys2Proof.Machine

theorem toNat_byteAt (w : Word) (j : Nat) : (byteAt w j).toNat = w.toNat / 2 ^ (8 * j) % 256 := by
  simp [byteAt, Nat.shiftRight_eq_div_pow]

theorem toNat_le32 (a b c d : Byte) :
    (le32 a b c d).toNat = a.toNat + 2 ^ 8 * b.toNat + 2 ^ 16 * c.toNat + 2 ^ 24 * d.toNat := by
  have ha := a.isLt; have hb := b.isLt; have hc := c.isLt; have hd := d.isLt
  simp only [le32, BitVec.toNat_ofNat]
  omega

@[simp] theorem byteAt_le32_0 (a b c d : Byte) : byteAt (le32 a b c d) 0 = a := by
  have ha := a.isLt; have hb := b.isLt; have hc := c.isLt; have hd := d.isLt
  apply BitVec.eq_of_toNat_eq; rw [toNat_byteAt, toNat_le32]; omega

@[simp] theorem byteAt_le32_1 (a b c d : Byte) : byteAt (le32 a b c d) 1 = b := by
  have ha := a.isLt; have hb := b.isLt; have hc := c.isLt; have hd := d.isLt
  apply BitVec.eq_of_toNat_eq; rw [toNat_byteAt, toNat_le32]; omega

@[simp] theorem byteAt_le32_2 (a b c d : Byte) : byteAt (le32 a b c d) 2 = c := by
  have ha := a.isLt; have hb := b.isLt; have hc := c.isLt; have hd := d.isLt
  apply BitVec.eq_of_toNat_eq; rw [toNat_byteAt, toNat_le32]; omega

@[simp] theorem byteAt_le32_3 (a b c d : Byte) : byteAt (le32 a b c d) 3 = d := by
  have ha := a.isLt; have hb := b.isLt; have hc := c.isLt; have hd := d.isLt
  apply BitVec.eq_of_toNat_eq; rw [toNat_byteAt, toNat_le32]; omega

/-- A word is `LE32` of its own bytes. -/
@[simp] theorem le32_byteAt (w : Word) : le32 (byteAt w 0) (byteAt w 1) (byteAt w 2) (byteAt w 3) = w := by
  have hw := w.isLt
  apply BitVec.eq_of_toNat_eq; simp only [toNat_le32, toNat_byteAt]; omega

/-- Two words with the same four bytes are equal. -/
theorem word_ext {v w : Word} (h : ∀ j < 4, byteAt v j = byteAt w j) : v = w := by
  rw [← le32_byteAt v, ← le32_byteAt w, h 0 (by decide), h 1 (by decide), h 2 (by decide), h 3 (by decide)]

theorem byteAt_xor (v w : Word) (j : Nat) : byteAt (v ^^^ w) j = byteAt v j ^^^ byteAt w j := by
  ext i hi; simp [byteAt]

/-- Exclusive or acts bytewise (42_drbg_commands.md R98). -/
theorem le32_xor (a b c d a' b' c' d' : Byte) :
    le32 (a ^^^ a') (b ^^^ b') (c ^^^ c') (d ^^^ d') = le32 a b c d ^^^ le32 a' b' c' d' := by
  apply word_ext
  intro j hj
  rw [byteAt_xor]
  match j, hj with
  | 0, _ => simp
  | 1, _ => simp
  | 2, _ => simp
  | 3, _ => simp

@[simp] theorem getElem_wordsAt {m : Nat} (s : Vector Byte m) (first k : Nat) (h : first + 4 * k ≤ m) (i : Nat)
    (hi : i < k) :
    (wordsAt s first k h)[i] = le32 (s[first + 4 * i]'(by omega)) (s[first + 4 * i + 1]'(by omega))
      (s[first + 4 * i + 2]'(by omega)) (s[first + 4 * i + 3]'(by omega)) := by
  simp [wordsAt]

@[simp] theorem getElem_bytesOf {k : Nat} (w : Vector Word k) (m : Nat) (h : m ≤ 4 * k) (i : Nat) (hi : i < m) :
    (bytesOf w m h)[i] = byteAt (w[i / 4]'(by omega)) (i % 4) := by
  simp [bytesOf]

@[simp] theorem getElem_toBytes (m : Nat) (l : List Byte) (i : Nat) (hi : i < m) :
    (toBytes m l)[i] = l.getD i 0 := by
  simp [toBytes]

@[simp] theorem getElem_zeroBytes (m i : Nat) (hi : i < m) : (zeroBytes m)[i] = 0 := by
  simp [zeroBytes]

@[simp] theorem getElem_xorBytes {m : Nat} (a b : Vector Byte m) (i : Nat) (hi : i < m) :
    (xorBytes a b)[i] = a[i] ^^^ b[i] := by
  simp [xorBytes]

end Sys2Proof.Machine
end

