-- ==== Sys2Proof/Laws/State.lean ====
section
/-! SUPPORT. One lemma per field per named update of the state: what the update writes there, or that it keeps it. -/

namespace Sys2Proof.Machine

/-! ### Fields after `LOADREP` (00_scope.md R15) -/

@[simp] theorem loadRep_key (r : Vector Byte 44) (s : State) : (loadRep r s).key = wordsAt r 0 8 := rfl
@[simp] theorem loadRep_nonce (r : Vector Byte 44) (s : State) : (loadRep r s).nonce = wordsAt r 32 3 := rfl
@[simp] theorem loadRep_ctr (r : Vector Byte 44) (s : State) : (loadRep r s).ctr = s.ctr := rfl
@[simp] theorem loadRep_buf (r : Vector Byte 44) (s : State) : (loadRep r s).buf = s.buf := rfl
@[simp] theorem loadRep_cur (r : Vector Byte 44) (s : State) : (loadRep r s).cur = s.cur := rfl
@[simp] theorem loadRep_keyed (r : Vector Byte 44) (s : State) : (loadRep r s).keyed = s.keyed := rfl
@[simp] theorem loadRep_scratch (r : Vector Byte 44) (s : State) : (loadRep r s).scratch = s.scratch := rfl
@[simp] theorem loadRep_cmdHi (r : Vector Byte 44) (s : State) : (loadRep r s).cmdHi = s.cmdHi := rfl
@[simp] theorem loadRep_arg (r : Vector Byte 44) (s : State) : (loadRep r s).arg = s.arg := rfl
@[simp] theorem loadRep_result (r : Vector Byte 44) (s : State) : (loadRep r s).result = s.result := rfl
@[simp] theorem loadRep_sticky (r : Vector Byte 44) (s : State) : (loadRep r s).sticky = s.sticky := rfl
@[simp] theorem loadRep_err (r : Vector Byte 44) (s : State) : (loadRep r s).err = s.err := rfl
@[simp] theorem loadRep_out (r : Vector Byte 44) (s : State) : (loadRep r s).out = s.out := rfl
@[simp] theorem loadRep_params (r : Vector Byte 44) (s : State) : (loadRep r s).params = s.params := rfl
@[simp] theorem loadRep_pending (r : Vector Byte 44) (s : State) : (loadRep r s).pending = s.pending := rfl
@[simp] theorem loadRep_reads (r : Vector Byte 44) (s : State) : (loadRep r s).reads = s.reads := rfl

/-! ### Fields after a load through SCRATCH (42_drbg_commands.md R95, R96, R98) -/

@[simp] theorem loadThroughScratch_key (r : Vector Byte 44) (s : State) : (loadThroughScratch r s).key = wordsAt r 0 8 := rfl
@[simp] theorem loadThroughScratch_nonce (r : Vector Byte 44) (s : State) : (loadThroughScratch r s).nonce = wordsAt r 32 3 := rfl
@[simp] theorem loadThroughScratch_ctr (r : Vector Byte 44) (s : State) : (loadThroughScratch r s).ctr = s.ctr := rfl
@[simp] theorem loadThroughScratch_buf (r : Vector Byte 44) (s : State) : (loadThroughScratch r s).buf = s.buf := rfl
@[simp] theorem loadThroughScratch_cur (r : Vector Byte 44) (s : State) : (loadThroughScratch r s).cur = s.cur := rfl
@[simp] theorem loadThroughScratch_keyed (r : Vector Byte 44) (s : State) : (loadThroughScratch r s).keyed = s.keyed := rfl
@[simp] theorem loadThroughScratch_scratch (r : Vector Byte 44) (s : State) : (loadThroughScratch r s).scratch = zeroBytes 44 := rfl
@[simp] theorem loadThroughScratch_cmdHi (r : Vector Byte 44) (s : State) : (loadThroughScratch r s).cmdHi = s.cmdHi := rfl
@[simp] theorem loadThroughScratch_arg (r : Vector Byte 44) (s : State) : (loadThroughScratch r s).arg = s.arg := rfl
@[simp] theorem loadThroughScratch_result (r : Vector Byte 44) (s : State) : (loadThroughScratch r s).result = s.result := rfl
@[simp] theorem loadThroughScratch_sticky (r : Vector Byte 44) (s : State) : (loadThroughScratch r s).sticky = s.sticky := rfl
@[simp] theorem loadThroughScratch_err (r : Vector Byte 44) (s : State) : (loadThroughScratch r s).err = s.err := rfl
@[simp] theorem loadThroughScratch_out (r : Vector Byte 44) (s : State) : (loadThroughScratch r s).out = s.out := rfl
@[simp] theorem loadThroughScratch_params (r : Vector Byte 44) (s : State) : (loadThroughScratch r s).params = s.params := rfl
@[simp] theorem loadThroughScratch_pending (r : Vector Byte 44) (s : State) : (loadThroughScratch r s).pending = s.pending := rfl
@[simp] theorem loadThroughScratch_reads (r : Vector Byte 44) (s : State) : (loadThroughScratch r s).reads = s.reads := rfl

/-! ### Fields after `OutEmit` (00_scope.md R16) -/

@[simp] theorem emit_key (b : List Byte) (s : State) : (emit b s).key = s.key := rfl
@[simp] theorem emit_nonce (b : List Byte) (s : State) : (emit b s).nonce = s.nonce := rfl
@[simp] theorem emit_ctr (b : List Byte) (s : State) : (emit b s).ctr = s.ctr := rfl
@[simp] theorem emit_buf (b : List Byte) (s : State) : (emit b s).buf = s.buf := rfl
@[simp] theorem emit_cur (b : List Byte) (s : State) : (emit b s).cur = s.cur := rfl
@[simp] theorem emit_keyed (b : List Byte) (s : State) : (emit b s).keyed = s.keyed := rfl
@[simp] theorem emit_scratch (b : List Byte) (s : State) : (emit b s).scratch = s.scratch := rfl
@[simp] theorem emit_cmdHi (b : List Byte) (s : State) : (emit b s).cmdHi = s.cmdHi := rfl
@[simp] theorem emit_arg (b : List Byte) (s : State) : (emit b s).arg = s.arg := rfl
@[simp] theorem emit_result (b : List Byte) (s : State) : (emit b s).result = s.result := rfl
@[simp] theorem emit_sticky (b : List Byte) (s : State) : (emit b s).sticky = s.sticky := rfl
@[simp] theorem emit_err (b : List Byte) (s : State) : (emit b s).err = s.err := rfl
@[simp] theorem emit_out (b : List Byte) (s : State) : (emit b s).out = s.out ++ b := rfl
@[simp] theorem emit_params (b : List Byte) (s : State) : (emit b s).params = s.params := rfl
@[simp] theorem emit_pending (b : List Byte) (s : State) : (emit b s).pending = s.pending := rfl
@[simp] theorem emit_reads (b : List Byte) (s : State) : (emit b s).reads = s.reads := rfl

/-! ### Fields after completion of an accepted command (60_exceptions.md R114) -/

@[simp] theorem accept_key (s : State) : (accept s).key = s.key := rfl
@[simp] theorem accept_nonce (s : State) : (accept s).nonce = s.nonce := rfl
@[simp] theorem accept_ctr (s : State) : (accept s).ctr = s.ctr := rfl
@[simp] theorem accept_buf (s : State) : (accept s).buf = s.buf := rfl
@[simp] theorem accept_cur (s : State) : (accept s).cur = s.cur := rfl
@[simp] theorem accept_keyed (s : State) : (accept s).keyed = s.keyed := rfl
@[simp] theorem accept_scratch (s : State) : (accept s).scratch = s.scratch := rfl
@[simp] theorem accept_cmdHi (s : State) : (accept s).cmdHi = s.cmdHi := rfl
@[simp] theorem accept_arg (s : State) : (accept s).arg = zeroBytes 44 := rfl
@[simp] theorem accept_result (s : State) : (accept s).result = s.result := rfl
@[simp] theorem accept_sticky (s : State) : (accept s).sticky = s.sticky := rfl
@[simp] theorem accept_err (s : State) : (accept s).err = none := rfl
@[simp] theorem accept_out (s : State) : (accept s).out = s.out := rfl
@[simp] theorem accept_params (s : State) : (accept s).params = s.params := rfl
@[simp] theorem accept_pending (s : State) : (accept s).pending = s.pending := rfl
@[simp] theorem accept_reads (s : State) : (accept s).reads = s.reads := rfl

/-! ### Fields after a rejection (60_exceptions.md R115) -/

@[simp] theorem reject_key (c : RejectCode) (s : State) : (reject c s).key = s.key := rfl
@[simp] theorem reject_nonce (c : RejectCode) (s : State) : (reject c s).nonce = s.nonce := rfl
@[simp] theorem reject_ctr (c : RejectCode) (s : State) : (reject c s).ctr = s.ctr := rfl
@[simp] theorem reject_buf (c : RejectCode) (s : State) : (reject c s).buf = s.buf := rfl
@[simp] theorem reject_cur (c : RejectCode) (s : State) : (reject c s).cur = s.cur := rfl
@[simp] theorem reject_keyed (c : RejectCode) (s : State) : (reject c s).keyed = s.keyed := rfl
@[simp] theorem reject_scratch (c : RejectCode) (s : State) : (reject c s).scratch = s.scratch := rfl
@[simp] theorem reject_cmdHi (c : RejectCode) (s : State) : (reject c s).cmdHi = s.cmdHi := rfl
@[simp] theorem reject_arg (c : RejectCode) (s : State) : (reject c s).arg = zeroBytes 44 := rfl
@[simp] theorem reject_result (c : RejectCode) (s : State) : (reject c s).result = s.result := rfl
@[simp] theorem reject_sticky (c : RejectCode) (s : State) : (reject c s).sticky = true := rfl
@[simp] theorem reject_err (c : RejectCode) (s : State) : (reject c s).err = some c := rfl
@[simp] theorem reject_out (c : RejectCode) (s : State) : (reject c s).out = s.out := rfl
@[simp] theorem reject_params (c : RejectCode) (s : State) : (reject c s).params = s.params := rfl
@[simp] theorem reject_pending (c : RejectCode) (s : State) : (reject c s).pending = s.pending := rfl
@[simp] theorem reject_reads (c : RejectCode) (s : State) : (reject c s).reads = s.reads := rfl

/-! ### Fields after the cursor's advance (41_stream_buffer.md R87) -/

@[simp] theorem advance_key (m : Nat) (s : State) : (advance m s).key = s.key := rfl
@[simp] theorem advance_nonce (m : Nat) (s : State) : (advance m s).nonce = s.nonce := rfl
@[simp] theorem advance_ctr (m : Nat) (s : State) : (advance m s).ctr = s.ctr := rfl
@[simp] theorem advance_buf (m : Nat) (s : State) : (advance m s).buf = s.buf := rfl
@[simp] theorem advance_cur (m : Nat) (s : State) : (advance m s).cur = Fin.ofNat 65 (s.cur.val + m) := rfl
@[simp] theorem advance_keyed (m : Nat) (s : State) : (advance m s).keyed = s.keyed := rfl
@[simp] theorem advance_scratch (m : Nat) (s : State) : (advance m s).scratch = s.scratch := rfl
@[simp] theorem advance_cmdHi (m : Nat) (s : State) : (advance m s).cmdHi = s.cmdHi := rfl
@[simp] theorem advance_arg (m : Nat) (s : State) : (advance m s).arg = s.arg := rfl
@[simp] theorem advance_result (m : Nat) (s : State) : (advance m s).result = s.result := rfl
@[simp] theorem advance_sticky (m : Nat) (s : State) : (advance m s).sticky = s.sticky := rfl
@[simp] theorem advance_err (m : Nat) (s : State) : (advance m s).err = s.err := rfl
@[simp] theorem advance_out (m : Nat) (s : State) : (advance m s).out = s.out := rfl
@[simp] theorem advance_params (m : Nat) (s : State) : (advance m s).params = s.params := rfl
@[simp] theorem advance_pending (m : Nat) (s : State) : (advance m s).pending = s.pending := rfl
@[simp] theorem advance_reads (m : Nat) (s : State) : (advance m s).reads = s.reads := rfl

end Sys2Proof.Machine
end

