-- ==== Sys2Proof/Laws/Stream.lean ====
section
/-! SUPPORT. What `draw` can do: it delivers what was asked, and writes BUF, CTR and CUR only (41_stream_buffer.md R86).
Which bytes, and which counter, the statements say. -/

namespace Sys2Proof.Machine

/-- A refill writes BUF, CTR and CUR only. -/
theorem refill_frame (s : State) :
    refill s = { s with buf := (refill s).buf, ctr := (refill s).ctr, cur := (refill s).cur } := by
  unfold refill; split <;> rfl

/-- After a refill there is at least one byte to read. -/
theorem refill_cur_lt (s : State) : (refill s).cur.val < 64 := by
  have := s.cur.isLt
  unfold refill; split
  · exact (by decide : (0 : Fin 65).val < 64)
  · omega

/-- The cursor's advance writes CUR only. -/
theorem advance_frame (m : Nat) (s : State) :
    advance m s = { s with buf := (advance m s).buf, ctr := (advance m s).ctr, cur := (advance m s).cur } := rfl

/-- Within the buffer, the advance adds. -/
theorem advance_cur_val {m : Nat} {s : State} (h : m ≤ 64 - s.cur.val) : (advance m s).cur.val = s.cur.val + m := by
  have := s.cur.isLt
  simp only [advance_cur, Fin.val_ofNat]
  omega

/-- Updates of BUF, CTR and CUR compose to one. -/
theorem stream_frame_trans {s t u : State} (hst : t = { s with buf := t.buf, ctr := t.ctr, cur := t.cur })
    (htu : u = { t with buf := u.buf, ctr := u.ctr, cur := u.cur }) :
    u = { s with buf := u.buf, ctr := u.ctr, cur := u.cur } := by
  rw [hst] at htu
  exact htu

/-- The loop writes BUF, CTR and CUR only. -/
theorem drawLoop_frame (fuel : Nat) : ∀ (n : Nat) (s : State),
    (drawLoop fuel n s).2 =
      { s with buf := (drawLoop fuel n s).2.buf, ctr := (drawLoop fuel n s).2.ctr, cur := (drawLoop fuel n s).2.cur }
    := by
  induction fuel with
  | zero => intro n s; rfl
  | succ fuel ih =>
    intro n s
    simp only [drawLoop]
    split
    · rfl
    · exact stream_frame_trans (refill_frame s) (stream_frame_trans (advance_frame _ _) (ih _ _))

/-- `draw` writes BUF, CTR and CUR only. -/
theorem draw_frame (n : Nat) (s : State) :
    (draw n s).2 = { s with buf := (draw n s).2.buf, ctr := (draw n s).2.ctr, cur := (draw n s).2.cur } :=
  drawLoop_frame n n s

@[simp] theorem draw_key (n : Nat) (s : State) : (draw n s).2.key = s.key := by rw [draw_frame]
@[simp] theorem draw_nonce (n : Nat) (s : State) : (draw n s).2.nonce = s.nonce := by rw [draw_frame]
@[simp] theorem draw_keyed (n : Nat) (s : State) : (draw n s).2.keyed = s.keyed := by rw [draw_frame]
@[simp] theorem draw_scratch (n : Nat) (s : State) : (draw n s).2.scratch = s.scratch := by rw [draw_frame]
@[simp] theorem draw_cmdHi (n : Nat) (s : State) : (draw n s).2.cmdHi = s.cmdHi := by rw [draw_frame]
@[simp] theorem draw_arg (n : Nat) (s : State) : (draw n s).2.arg = s.arg := by rw [draw_frame]
@[simp] theorem draw_result (n : Nat) (s : State) : (draw n s).2.result = s.result := by rw [draw_frame]
@[simp] theorem draw_sticky (n : Nat) (s : State) : (draw n s).2.sticky = s.sticky := by rw [draw_frame]
@[simp] theorem draw_err (n : Nat) (s : State) : (draw n s).2.err = s.err := by rw [draw_frame]
@[simp] theorem draw_out (n : Nat) (s : State) : (draw n s).2.out = s.out := by rw [draw_frame]
@[simp] theorem draw_params (n : Nat) (s : State) : (draw n s).2.params = s.params := by rw [draw_frame]
@[simp] theorem draw_pending (n : Nat) (s : State) : (draw n s).2.pending = s.pending := by rw [draw_frame]
@[simp] theorem draw_reads (n : Nat) (s : State) : (draw n s).2.reads = s.reads := by rw [draw_frame]

/-- With as many passes as bytes wanted, the loop delivers every byte. -/
theorem length_drawLoop (fuel : Nat) : ∀ (n : Nat) (s : State), n ≤ fuel → (drawLoop fuel n s).1.length = n := by
  induction fuel with
  | zero => intro n s h; simp only [drawLoop, List.length_nil]; omega
  | succ fuel ih =>
    intro n s h
    have hc := refill_cur_lt s
    simp only [drawLoop]
    split
    · rename_i h0; simp [h0]
    · rw [List.length_append, ih _ _ (by omega)]
      simp only [bufferSlice, List.length_take, List.length_drop, Vector.length_toList]
      omega

/-- `draw(n)` delivers `n` bytes. -/
@[simp] theorem length_draw (n : Nat) (s : State) : (draw n s).1.length = n := length_drawLoop n n s (Nat.le_refl n)

/-- The keystream is a function of KEY, NONCE, CTR, BUF, CUR and SIGMA (41_stream_buffer.md R91). -/
theorem keystream_congr {s t : State} (hk : t.key = s.key) (hn : t.nonce = s.nonce) (hc : t.ctr = s.ctr)
    (hb : t.buf = s.buf) (hu : t.cur = s.cur) (hp : t.params = s.params) (i : Nat) : keystream t i = keystream s i := by
  simp only [keystream, blockAt, hk, hn, hc, hb, hu, hp]

end Sys2Proof.Machine
end

