-- ==== Sys2Proof/Laws/Drbg.lean ====
section
/-! SUPPORT. What `rekey` and `mix` can do, in terms of the bytes drawn (42_drbg_commands.md R95, R96). -/

namespace Sys2Proof.Machine

/-- `rekey`, from the 44 bytes the draw gives: it writes KEY, NONCE, CTR, CUR, BUF and SCRATCH only. -/
theorem rekey_eq (s : State) :
    rekey s = { s with
      key := wordsAt (toBytes 44 (draw 44 s).1) 0 8, nonce := wordsAt (toBytes 44 (draw 44 s).1) 32 3,
      ctr := 0, cur := 64, buf := zeroBytes 64, scratch := zeroBytes 44 } := by
  simp only [rekey, loadThroughScratch, loadRep]
  rw [draw_frame]

@[simp] theorem rekey_ctr (s : State) : (rekey s).ctr = 0 := rfl
@[simp] theorem rekey_cur (s : State) : (rekey s).cur = 64 := rfl
@[simp] theorem rekey_buf (s : State) : (rekey s).buf = zeroBytes 64 := rfl
@[simp] theorem rekey_scratch (s : State) : (rekey s).scratch = zeroBytes 44 := rfl
@[simp] theorem rekey_keyed (s : State) : (rekey s).keyed = s.keyed := by rw [rekey_eq]
@[simp] theorem rekey_cmdHi (s : State) : (rekey s).cmdHi = s.cmdHi := by rw [rekey_eq]
@[simp] theorem rekey_arg (s : State) : (rekey s).arg = s.arg := by rw [rekey_eq]
@[simp] theorem rekey_result (s : State) : (rekey s).result = s.result := by rw [rekey_eq]
@[simp] theorem rekey_sticky (s : State) : (rekey s).sticky = s.sticky := by rw [rekey_eq]
@[simp] theorem rekey_err (s : State) : (rekey s).err = s.err := by rw [rekey_eq]
@[simp] theorem rekey_out (s : State) : (rekey s).out = s.out := by rw [rekey_eq]
@[simp] theorem rekey_params (s : State) : (rekey s).params = s.params := by rw [rekey_eq]
@[simp] theorem rekey_pending (s : State) : (rekey s).pending = s.pending := by rw [rekey_eq]
@[simp] theorem rekey_reads (s : State) : (rekey s).reads = s.reads := by rw [rekey_eq]

/-- An empty additional input is no input. -/
@[simp] theorem mix_nil (s : State) : mix [] s = s := rfl

/-- A nonempty additional input. -/
theorem mix_of_ne_nil {a : List Byte} (h : a ≠ []) (s : State) :
    mix a s = { loadThroughScratch (xorBytes (rep s) (cyclic a)) s with cur := 64 } := by
  have : a.length ≠ 0 := by simpa using h
  simp only [mix, if_neg this]

/-- `mix` writes KEY, NONCE, CUR and SCRATCH only. -/
theorem mix_frame (a : List Byte) (s : State) :
    mix a s = { s with
      key := (mix a s).key, nonce := (mix a s).nonce, cur := (mix a s).cur, scratch := (mix a s).scratch } := by
  unfold mix; split <;> rfl

@[simp] theorem mix_ctr (a : List Byte) (s : State) : (mix a s).ctr = s.ctr := by rw [mix_frame]
@[simp] theorem mix_buf (a : List Byte) (s : State) : (mix a s).buf = s.buf := by rw [mix_frame]
@[simp] theorem mix_keyed (a : List Byte) (s : State) : (mix a s).keyed = s.keyed := by rw [mix_frame]
@[simp] theorem mix_cmdHi (a : List Byte) (s : State) : (mix a s).cmdHi = s.cmdHi := by rw [mix_frame]
@[simp] theorem mix_arg (a : List Byte) (s : State) : (mix a s).arg = s.arg := by rw [mix_frame]
@[simp] theorem mix_result (a : List Byte) (s : State) : (mix a s).result = s.result := by rw [mix_frame]
@[simp] theorem mix_sticky (a : List Byte) (s : State) : (mix a s).sticky = s.sticky := by rw [mix_frame]
@[simp] theorem mix_err (a : List Byte) (s : State) : (mix a s).err = s.err := by rw [mix_frame]
@[simp] theorem mix_out (a : List Byte) (s : State) : (mix a s).out = s.out := by rw [mix_frame]
@[simp] theorem mix_params (a : List Byte) (s : State) : (mix a s).params = s.params := by rw [mix_frame]
@[simp] theorem mix_pending (a : List Byte) (s : State) : (mix a s).pending = s.pending := by rw [mix_frame]
@[simp] theorem mix_reads (a : List Byte) (s : State) : (mix a s).reads = s.reads := by rw [mix_frame]

end Sys2Proof.Machine
end

