-- ==== Sys2Proof/Laws/Commands.lean ====
section
/-! SUPPORT. What each command's effect writes, as one record update (42_drbg_commands.md R97 to R103). -/

namespace Sys2Proof.Machine

/-- NEXTWORD32 writes RESULT, and BUF, CTR and CUR as its draw does. -/
theorem nextwordEffect_eq (s : State) :
    nextwordEffect s = { s with
      result := firstWord (draw 4 s).1, buf := (draw 4 s).2.buf, ctr := (draw 4 s).2.ctr,
      cur := (draw 4 s).2.cur } := by
  simp only [nextwordEffect]
  rw [draw_frame]

/-- The output of GENERATE after its draw of `n` bytes: OUT grows, BUF, CTR and CUR as the draw leaves them. -/
theorem emit_draw_eq (n : Nat) (s : State) :
    emit (draw n s).1 (draw n s).2 = { s with
      out := s.out ++ (draw n s).1, buf := (draw n s).2.buf, ctr := (draw n s).2.ctr, cur := (draw n s).2.cur } := by
  simp only [emit]
  rw [draw_frame]

/-- GENERATE leaves what its rekey leaves, with the drawn bytes at the end of OUT. -/
theorem generateEffect_out (outlen : Word) (addlen : BitVec 6) (s : State) :
    (generateEffect outlen addlen s).out =
      s.out ++ (draw outlen.toNat (mix (additionalInput addlen s) s)).1 := by
  simp only [generateEffect, rekey_out, emit_out, draw_out, mix_out, outputLength]

/-- The effect of a command, before its completion. -/
def effectOf : Instr → State → State
  | .init => initEffect
  | .reseed => reseedEffect
  | .generate outlen addlen => generateEffect outlen addlen
  | .nextword32 => nextwordEffect
  | .zeroize => zeroizeEffect

/-! No effect writes CMD_HI, STICKY, the parameters, the model's own fields, or what the completion writes. -/

@[simp] theorem effectOf_cmdHi (i : Instr) (s : State) : (effectOf i s).cmdHi = s.cmdHi := by
  cases i <;> simp [effectOf, initEffect, reseedEffect, generateEffect, nextwordEffect, zeroizeEffect]
@[simp] theorem effectOf_sticky (i : Instr) (s : State) : (effectOf i s).sticky = s.sticky := by
  cases i <;> simp [effectOf, initEffect, reseedEffect, generateEffect, nextwordEffect, zeroizeEffect]
@[simp] theorem effectOf_params (i : Instr) (s : State) : (effectOf i s).params = s.params := by
  cases i <;> simp [effectOf, initEffect, reseedEffect, generateEffect, nextwordEffect, zeroizeEffect]
@[simp] theorem effectOf_pending (i : Instr) (s : State) : (effectOf i s).pending = s.pending := by
  cases i <;> simp [effectOf, initEffect, reseedEffect, generateEffect, nextwordEffect, zeroizeEffect]
@[simp] theorem effectOf_reads (i : Instr) (s : State) : (effectOf i s).reads = s.reads := by
  cases i <;> simp [effectOf, initEffect, reseedEffect, generateEffect, nextwordEffect, zeroizeEffect]
@[simp] theorem effectOf_arg (i : Instr) (s : State) : (effectOf i s).arg = s.arg := by
  cases i <;> simp [effectOf, initEffect, reseedEffect, generateEffect, nextwordEffect, zeroizeEffect]
@[simp] theorem effectOf_err (i : Instr) (s : State) : (effectOf i s).err = s.err := by
  cases i <;> simp [effectOf, initEffect, reseedEffect, generateEffect, nextwordEffect, zeroizeEffect]

end Sys2Proof.Machine
end

