-- ==== Sys2Proof/Laws/Encoding.lean ====
section
/-! SUPPORT. The command word and its fields as numbers (30_encoding.md R61, R62), so that omega settles the encoding. -/

namespace Sys2Proof

theorem toNat_commandWord (hi lo : Word) : (commandWord hi lo).toNat = hi.toNat * 2 ^ 32 + lo.toNat := by
  simp only [commandWord, BitVec.toNat_append]
  rw [← Nat.shiftLeft_add_eq_or_of_lt lo.isLt, Nat.shiftLeft_eq]

theorem toNat_opField (hi lo : Word) : (opField (commandWord hi lo)).toNat = lo.toNat % 16 := by
  simp only [opField, BitVec.extractLsb'_toNat, toNat_commandWord, Nat.shiftRight_eq_div_pow]
  omega

theorem toNat_addlenField (hi lo : Word) : (addlenField (commandWord hi lo)).toNat = lo.toNat / 16 % 64 := by
  simp only [addlenField, BitVec.extractLsb'_toNat, toNat_commandWord, Nat.shiftRight_eq_div_pow]
  omega

theorem outlenField_commandWord (hi lo : Word) : outlenField (commandWord hi lo) = hi := by
  have h := hi.isLt; have l := lo.isLt
  apply BitVec.eq_of_toNat_eq
  simp only [outlenField, BitVec.extractLsb'_toNat, toNat_commandWord, Nat.shiftRight_eq_div_pow]
  omega

theorem toNat_reservedG (hi lo : Word) : (reservedG (commandWord hi lo)).toNat = lo.toNat / 1024 := by
  have l := lo.isLt
  simp only [reservedG, BitVec.extractLsb'_toNat, toNat_commandWord, Nat.shiftRight_eq_div_pow]
  omega

theorem toNat_reservedN (hi lo : Word) : (reservedN (commandWord hi lo)).toNat = lo.toNat / 16 := by
  have l := lo.isLt
  simp only [reservedN, BitVec.extractLsb'_toNat, toNat_commandWord, Nat.shiftRight_eq_div_pow]
  omega

/-- Every command word is that of its two halves. -/
theorem commandWord_halves (cmd : BitVec 64) :
    commandWord (cmd.extractLsb' 32 32) (cmd.extractLsb' 0 32) = cmd := by
  have h := cmd.isLt
  apply BitVec.eq_of_toNat_eq
  simp only [toNat_commandWord, BitVec.extractLsb'_toNat, Nat.shiftRight_eq_div_pow]
  omega

theorem toNat_encodeLo_generate (outlen : Word) (addlen : BitVec 6) :
    (encodeLo (.generate outlen addlen)).toNat = 3 + 16 * addlen.toNat := by
  have h := addlen.isLt
  simp only [encodeLo, BitVec.toNat_append]
  rw [← Nat.shiftLeft_add_eq_or_of_lt (show (0x3#4).toNat < 2 ^ 4 by decide),
    ← Nat.shiftLeft_add_eq_or_of_lt addlen.isLt]
  simp [Nat.shiftLeft_eq]
  omega

end Sys2Proof
end

