-- ==== Sys2Proof/Laws/PerInstr.lean ====
section
/-! SUPPORT. A fact about every command, one lemma a constructor: what stands in the fields of its encoding
(30_encoding.md R62, R63, R65). -/

namespace Sys2Proof.Laws.EncodedFields

/-- Whatever the ignored bits, the OP field of the encoding is the command's opcode, one of 1 to 5, and bits 31:10,
reserved in both formats, are 0. -/
def Statement (i : Instr) : Prop :=
  ∀ ignored : Word,
    opField (encodeWith ignored i) = opcode i ∧ 1 ≤ (opcode i).toNat ∧ (opcode i).toNat ≤ 5 ∧
      reservedG (encodeWith ignored i) = 0

/-- The four parts, from the low word as a number. -/
theorem of_low_word (i : Instr) (hop : (encodeLo i).toNat % 16 = (opcode i).toNat)
    (hrange : 1 ≤ (opcode i).toNat ∧ (opcode i).toNat ≤ 5) (hres : (encodeLo i).toNat / 1024 = 0) : Statement i := by
  intro ignored
  refine ⟨BitVec.eq_of_toNat_eq ?_, hrange.1, hrange.2, BitVec.eq_of_toNat_eq ?_⟩
  · rw [encodeWith, toNat_opField, hop]
  · rw [encodeWith, toNat_reservedG, hres]; rfl

theorem init : Statement .init := of_low_word _ (by decide) (by decide) (by decide)

theorem reseed : Statement .reseed := of_low_word _ (by decide) (by decide) (by decide)

theorem generate (outlen : Word) (addlen : BitVec 6) : Statement (.generate outlen addlen) := by
  have h := addlen.isLt
  refine of_low_word _ ?_ (by simp [opcode]) ?_
  · rw [toNat_encodeLo_generate]; simp [opcode]
  · rw [toNat_encodeLo_generate]; omega

theorem nextword32 : Statement .nextword32 := of_low_word _ (by decide) (by decide) (by decide)

theorem zeroize : Statement .zeroize := of_low_word _ (by decide) (by decide) (by decide)

end Sys2Proof.Laws.EncodedFields
end

