-- ==== Sys2Proof/Laws/Step.lean ====
section
/-! SUPPORT. What a command and a step can do, said once: inversion lemmas for the statements to cite. -/

namespace Sys2Proof.Machine

/-- An accepted command completes with its effect (60_exceptions.md R112, R114). -/
theorem exec_accepted {i : Instr} {s : State} (hw : i.wf = true) (hk : needsKey i = true → s.keyed = true) :
    exec i s = .next (accept (effectOf i s)) := by
  cases i with
  | init => rfl
  | reseed => exact if_pos (hk rfl)
  | generate outlen addlen =>
    have hle : ¬Config.addinMax < addlen.toNat := Nat.not_lt.mpr (of_decide_eq_true hw)
    simp only [exec, execGenerate, if_neg hle, whenKeyed, if_pos (hk rfl), effectOf]
  | nextword32 => exact if_pos (hk rfl)
  | zeroize => rfl

/-- A well-formed command that needs a key takes NOT_KEYED on an unkeyed core (60_exceptions.md R111, R115). -/
theorem exec_unkeyed {i : Instr} {s : State} (hw : i.wf = true) (hn : needsKey i = true) (hk : s.keyed = false) :
    exec i s = .next (reject .notKeyed s) := by
  have hk' : ¬s.keyed = true := by simp [hk]
  cases i with
  | init => cases hn
  | reseed => exact if_neg hk'
  | generate outlen addlen =>
    have hle : ¬Config.addinMax < addlen.toNat := Nat.not_lt.mpr (of_decide_eq_true hw)
    simp only [exec, execGenerate, if_neg hle, whenKeyed, if_neg hk']
  | nextword32 => exact if_neg hk'
  | zeroize => cases hn

/-- What a command can do: be rejected, or complete with its effect. -/
theorem exec_cases (i : Instr) (s : State) :
    (needsKey i = true ∧ ∃ c, exec i s = .next (reject c s)) ∨
      (i.wf = true ∧ (needsKey i = true → s.keyed = true) ∧ exec i s = .next (accept (effectOf i s))) := by
  cases hw : i.wf with
  | false =>
    cases i with
    | generate outlen addlen =>
      have hlt : Config.addinMax < addlen.toNat := Nat.lt_of_not_le (of_decide_eq_false hw)
      exact .inl ⟨rfl, .badAddlen, by simp only [exec, execGenerate, if_pos hlt]⟩
    | init => cases hw
    | reseed => cases hw
    | nextword32 => cases hw
    | zeroize => cases hw
  | true =>
    cases hn : needsKey i with
    | false => exact .inr ⟨rfl, fun h => by simp at h, exec_accepted hw (fun h => by simp [hn] at h)⟩
    | true =>
      cases hk : s.keyed with
      | false => exact .inl ⟨rfl, _, exec_unkeyed hw hn hk⟩
      | true => exact .inr ⟨rfl, fun _ => rfl, exec_accepted hw (fun _ => hk)⟩

/-- A legal access resolves to its offset; another one does not resolve. -/
theorem resolve_legal {p : Params} {a : Access} (h : legalAccess p a = true) : resolve p a = .ok (a.addr - p.base) := by
  simp only [legalAccess, decide_eq_true_eq] at h
  obtain ⟨h1, h2, h3, h4, h5⟩ := h
  simp only [resolve, h1, h2, h5]
  simp
  omega

/-- An access that is not legal is refused. -/
theorem resolve_illegal {p : Params} {a : Access} (h : legalAccess p a = false) : ∃ r, resolve p a = .error r := by
  simp only [legalAccess, decide_eq_false_iff_not] at h
  unfold resolve
  repeat' split
  all_goals first | exact ⟨_, rfl⟩ | skip
  rename_i h1 h2 h3 h4
  refine absurd ⟨?_, ?_, ?_, ?_, ?_⟩ h
  · cases ha : a.agent with
    | host => rfl
    | other => exact absurd ha h1
  all_goals omega

/-- A host access at an aligned offset of the space resolves to that offset. -/
theorem resolve_host (p : Params) (off : Nat) (k : AccessKind) (h : off % 4 = 0) (h' : off < 0x100) :
    resolve p ⟨.host, p.base + off, 4, k⟩ = .ok off := by
  have hl : legalAccess p ⟨.host, p.base + off, 4, k⟩ = true := by
    simp only [legalAccess, decide_eq_true_eq]
    refine ⟨trivial, trivial, ?_, ?_, ?_⟩
    · exact Nat.le_add_right _ _
    · exact Nat.add_lt_add_left h' _
    · simp [h]
  rw [resolve_legal hl]
  simp

/-- The step of a state whose next event is a host write. -/
theorem step_hostWrite {s : State} {off : Nat} {v : Word} {rest : List Event}
    (hp : s.pending = hostWrite s.params off v :: rest) (h : off % 4 = 0) (h' : off < 0x100) :
    step s = writeReg { s with pending := rest } v (regAt off) := by
  simp only [step, runNext, hp, runEvent, hostWrite, runAccess]
  rw [resolve_host _ _ _ h h']

/-- The step of a state whose next event is a host read. -/
theorem step_hostRead {s : State} {off : Nat} {rest : List Event}
    (hp : s.pending = hostRead s.params off :: rest) (h : off % 4 = 0) (h' : off < 0x100) :
    step s = .next { s with pending := rest, reads := s.reads ++ [readReg { s with pending := rest } (regAt off)] } := by
  simp only [step, runNext, hp, runEvent, hostRead, runAccess]
  rw [resolve_host _ _ _ h h']

/-- What a step with a next state did: nothing was to come; a reset; a read; a write that stored or did nothing; a
rejection of an undecodable word; or a command. -/
theorem step_cases {s t : State} (h : step s = .next t) :
    (s.pending = [] ∧ t = s) ∨
    ∃ e rest, s.pending = e :: rest ∧
      ((e = .reset ∧ t = { State.resetWith s.params with pending := rest }) ∨
       (∃ w, t = { s with pending := rest, reads := s.reads ++ [w] }) ∨
       (∃ v, t = { s with pending := rest, cmdHi := v }) ∨
       (∃ j v, t = { s with pending := rest, arg := (writeArg j v s).arg }) ∨
       t = { s with pending := rest } ∨
       (∃ v, e = hostWrite s.params 0x00 v ∧
         ((∃ c, t = reject c { s with pending := rest }) ∨ (∃ i, exec i { s with pending := rest } = .next t)))) := by
  simp only [step, runNext] at h
  split at h
  · rename_i hp
    exact .inl ⟨hp, by cases h; rfl⟩
  · rename_i e rest hp
    refine .inr ⟨e, rest, hp, ?_⟩
    cases e with
    | reset => exact .inl ⟨rfl, by cases h; rfl⟩
    | access a =>
      simp only [runEvent, runAccess] at h
      cases hl : legalAccess s.params a with
      | false =>
        obtain ⟨r, hr⟩ := resolve_illegal hl
        rw [hr] at h; cases h
      | true =>
        rw [resolve_legal hl] at h
        simp only [legalAccess, decide_eq_true_eq] at hl
        obtain ⟨ha, hw, hb, -, -⟩ := hl
        obtain ⟨agent, addr, width, kind⟩ := a
        cases kind with
        | read => exact .inr (.inl ⟨_, by cases h; rfl⟩)
        | write v =>
          simp only at h ha hw hb
          by_cases hz : addr - s.params.base = 0
          · right; right; right; right; right
            refine ⟨v, ?_, ?_⟩
            · have : addr = s.params.base := by omega
              simp [hostWrite, ha, hw, this]
            · rw [hz] at h
              simp only [regAt, writeReg, issueCommand, if_true] at h
              split at h
              · exact .inl ⟨_, by cases h; rfl⟩
              · exact .inr ⟨_, h⟩
          · have hne : regAt (addr - s.params.base) ≠ .cmdLo := by
              unfold regAt
              rw [if_neg hz]
              repeat' split
              all_goals simp
            revert hne h
            cases regAt (addr - s.params.base) with
            | cmdLo => intro _ hne; exact absurd rfl hne
            | cmdHi => intro h _; exact .inr (.inr (.inl ⟨v, by cases h; rfl⟩))
            | arg j => intro h _; exact .inr (.inr (.inr (.inl ⟨j, v, by cases h; rfl⟩)))
            | status => intro h _; exact .inr (.inr (.inr (.inr (.inl (by cases h; rfl)))))
            | result => intro h _; exact .inr (.inr (.inr (.inr (.inl (by cases h; rfl)))))
            | dbgKey i => intro h _; exact .inr (.inr (.inr (.inr (.inl (by cases h; rfl)))))
            | dbgNonce i => intro h _; exact .inr (.inr (.inr (.inr (.inl (by cases h; rfl)))))
            | dbgCtr => intro h _; exact .inr (.inr (.inr (.inr (.inl (by cases h; rfl)))))
            | dbgCur => intro h _; exact .inr (.inr (.inr (.inr (.inl (by cases h; rfl)))))
            | reserved => intro h _; exact .inr (.inr (.inr (.inr (.inl (by cases h; rfl)))))

end Sys2Proof.Machine
end

