-- ==== Sys2Proof/Machine/Assembler.lean ====
section
/-! DEFINITION. The spelling of host programs (30_encoding.md R69, R70): characters to lines, lines to `HostLine`.
What R69 leaves open of the spelling is the model's choice, DESIGN CHOICE (log 16): the digits of a byte, the case of
hexadecimal digits, where white space may stand, and that a malformed line makes the whole text no program. -/

namespace Sys2Proof.Machine

/-- What a line is made of: a mnemonic or a number, a comma, or a byte string. -/
inductive Token where
  | word (cs : List Char)
  | comma
  | bytes (l : List Byte)
deriving DecidableEq, Repr

/-- The value of a digit, where the character is one in that base (R69: decimal or hexadecimal). That a hexadecimal
digit may be of either case is the model's choice, DESIGN CHOICE (log 16). -/
def digitValue (base : Nat) (c : Char) : Option Nat :=
  let n := c.toNat
  let v :=
    if 48 ≤ n ∧ n ≤ 57 then some (n - 48)
    else if 65 ≤ n ∧ n ≤ 70 then some (n - 55)
    else if 97 ≤ n ∧ n ≤ 102 then some (n - 87)
    else none
  v.filter fun d => decide (d < base)

/-- The number that digits spell, most significant first, after the value `acc` of those before them. -/
def digitsValue (base acc : Nat) : List Char → Option Nat
  | [] => some acc
  | c :: cs =>
    match digitValue base c with
    | none => none
    | some d => digitsValue base (acc * base + d) cs

/-- A number: decimal, or hexadecimal after `0x` (R69). -/
def numberOf : List Char → Option Nat
  | [] => none
  | ['0', 'x'] => none
  | '0' :: 'x' :: cs => digitsValue 16 0 cs
  | cs => digitsValue 10 0 cs

/-- A number that fits 32 bits. -/
def word32Of (cs : List Char) : Option Word :=
  (numberOf cs).bind fun n => if n < 2 ^ 32 then some (BitVec.ofNat 32 n) else none

/-- One byte of a byte string, in hexadecimal (R69). R69 does not say how many digits a byte has; that one or two are
accepted, and no more, is the model's choice, DESIGN CHOICE (log 16). -/
def byteOf (cs : List Char) : Option Byte :=
  if cs.length = 0 ∨ 2 < cs.length then none else (digitsValue 16 0 cs).map (BitVec.ofNat 8)

/-- The pending characters `cur` (last first) as a token in front of `rest`, if there are any. -/
def flushWord (cur : List Char) (rest : List Token) : List Token :=
  if cur.isEmpty then rest else .word cur.reverse :: rest

/-- The pending characters of a byte string as its next byte, if there are any. -/
def flushByte (cur : List Char) (bs : List Byte) : Option (List Byte) :=
  if cur.isEmpty then some bs else (byteOf cur.reverse).map fun b => bs ++ [b]

/-- The tokens of one line. `cur` holds the characters of the token being read, last first, and `inside` the bytes of the
byte string being read, if one is open; `;` starts a comment (R69). That tabs and carriage returns outside a byte string, and tabs inside
one, count as spaces is the model's choice, DESIGN CHOICE (log 16). -/
def lexLine (cur : List Char) (inside : Option (List Byte)) : List Char → Option (List Token)
  | [] => if inside.isSome then none else some (flushWord cur [])
  | c :: cs =>
    match inside with
    | none =>
      if c = ';' then some (flushWord cur [])
      else if c = ' ' ∨ c = '\t' ∨ c = '\r' then (lexLine [] none cs).map (flushWord cur)
      else if c = ',' then (lexLine [] none cs).map fun r => flushWord cur (.comma :: r)
      else if c = '[' then (lexLine [] (some []) cs).map (flushWord cur)
      else if c = ']' then none
      else lexLine (c :: cur) none cs
    | some bs =>
      if c = ' ' ∨ c = '\t' then (flushByte cur bs).bind fun bs' => lexLine [] (some bs') cs
      else if c = ']' then (flushByte cur bs).bind fun bs' => (lexLine [] none cs).map fun r => .bytes bs' :: r
      else lexLine (c :: cur) (some bs) cs

/-- A byte string of exactly `n` bytes. -/
def exactly (n : Nat) (l : List Byte) : Option (Vector Byte n) := if l.length = n then some (toBytes n l) else none

/-- The line a mnemonic (upper case, R69) and its operands stand for, where they have the form R69 or R70 gives. -/
def lineOf (m : String) (ops : List Token) : Option HostLine :=
  match m, ops with
  | "WR", [.word off, .comma, .word v] => (numberOf off).bind fun o => (word32Of v).map (.wr o)
  | "RD", [.word off] => (numberOf off).map .rd
  | "INIT", [] => some .init
  | "RESEED", [] => some .reseed
  | "GENERATE", [.word a] => (numberOf a).map .generate
  | "NEXTWORD32", [] => some .nextword32
  | "ZEROIZE", [] => some .zeroize
  | "LOADARG", [.bytes s] => some (.loadarg s)
  | "SETLEN", [.word n] => (word32Of n).map .setlen
  | "INITK", [.bytes k, .comma, .bytes n] => (exactly 32 k).bind fun key => (exactly 12 n).map (.initk key)
  | "RESEEDS", [.bytes s] => (exactly 44 s).map .reseeds
  | "GEN", [.word n] => (word32Of n).map .gen
  | "GENA", [.word n, .comma, .bytes a] => (word32Of n).map fun len => .gena len a
  | "INITSTREAM", [.bytes k, .comma, .word id] =>
    (exactly 32 k).bind fun key => (numberOf id).bind fun i =>
      if i < 2 ^ 64 then some (.initstream key (BitVec.ofNat 64 i)) else none
  | "SELFTEST", [] => some .selftest
  | "READWORD", [] => some .readword
  | _, _ => none

/-- One line of text: none where it is malformed, and no line where it holds nothing but a comment (R69). -/
def parseLine (text : List Char) : Option (Option HostLine) :=
  match lexLine [] none text with
  | none => none
  | some [] => some none
  | some (.word m :: ops) => (lineOf (String.ofList m) ops).map some
  | some (.comma :: _) => none
  | some (.bytes _ :: _) => none

/-- A text cut at its line ends. -/
def splitLines : List Char → List (List Char)
  | [] => [[]]
  | c :: cs =>
    match splitLines cs with
    | [] => [[c]]
    | l :: ls => if c = '\n' then [] :: l :: ls else (c :: l) :: ls

/-- The lines of a program, blank and comment lines left out; none where one is malformed. -/
def parseLines : List (List Char) → Option (List HostLine)
  | [] => some []
  | t :: ts =>
    match parseLine t, parseLines ts with
    | some none, some ls => some ls
    | some (some l), some ls => some (l :: ls)
    | _, _ => none

/-- The host accesses of a program written as text (R69, R70). -/
def assembleText (p : Params) (text : List Char) : Option (List Event) :=
  (parseLines (splitLines text)).bind (assemble p)

end Sys2Proof.Machine
end

