-- ==== Sys2Proof/Tests/Slice0.lean ====
section
/-! SUPPORT. The model against the vectors of 95_test_vectors.md, one step each, and a witness for the hypotheses of
every statement. Expected values are the spec's. -/

namespace Sys2Proof.Tests

open Sys2Proof.Machine

/-! ### Small states -/

/-- A field of the next state, where there is one. -/
def after {α : Type} (o : Host.Outcome State Fault Refusal) (f : State → α) : Option α :=
  match o with
  | .next t => some (f t)
  | .fault _ => none
  | .refused _ => none

/-- Did the machine go on? -/
def completes (o : Host.Outcome State Fault Refusal) : Bool := (after o fun _ => ()).isSome

/-- The KAT seed: key 00 to 1F, nonce 00 to 0B. -/
def katSeed : Vector Byte 44 := Vector.ofFn fun i => if i.val < 32 then BitVec.ofNat 8 i.val else BitVec.ofNat 8 (i.val - 32)

/-- A core just out of reset whose operand window holds the KAT seed. -/
def loaded : State := { State.reset with arg := katSeed }

/-- The state V7 gives after INIT of the KAT seed. -/
def v7 : State :=
  { State.reset with
    key := #v[0x11f13a10, 0x9d548bc1, 0xb08f2439, 0x9ac2607d, 0x88dbd195, 0xb4f792d8, 0x5f9a70af, 0x4b9e7ad4]
    nonce := #v[0x659affd5, 0x702cd58d, 0x0f1fef8b]
    keyed := true }

/-- The V7 state after `k` NEXTWORD32, for `k` in 1 to 16: CTR 1, CUR `4k`, BUF the block of counter 0. -/
def v7Words (k : Nat) : State := { v7 with ctr := 1, cur := Fin.ofNat 65 (4 * k), buf := blockAt v7 0 }

/-- The KAT key and nonce set directly, as in section 2.2 of the vectors. -/
def streamState : State := { State.reset with key := wordsAt katSeed 0 8, nonce := wordsAt katSeed 32 3 }

/-- A state with a `CMD_LO` write of `v` as its next event. -/
def issuing (v : Word) (s : State) : State := { s with pending := [hostWrite s.params 0x00 v] }

/-! ### Well-formedness -/

theorem test_wf_refuses_long_input : (Instr.generate 0 45).wf = false ∧ (Instr.generate 0 63).wf = false := by decide
theorem test_wf_accepts : (Instr.generate 0xFFFFFFFF 44).wf = true ∧ Instr.init.wf = true ∧ Instr.reseed.wf = true ∧
    Instr.nextword32.wf = true ∧ Instr.zeroize.wf = true := by decide

/-! ### Decoding, each word written out bit by bit from R62, R63 -/

theorem test_decode_init :
    decode 0b0000000000000000000000000000000000000000000000000000000000000001 = .command .init := by decide
theorem test_decode_reseed :
    decode 0b1111111111111111111111111111111100000000000000000000000000000010 = .command .reseed := by decide
/-- OUTLEN 10 in bits 63:32, ADDLEN 44 (101100) in bits 9:4, OP 3. -/
theorem test_decode_generate :
    decode 0b0000000000000000000000000000101000000000000000000000001011000011 = .command (.generate 10 44) := by decide
theorem test_decode_nextword32 :
    decode 0b0000000000000000000000000000000000000000000000000000000000000100 = .command .nextword32 := by decide
theorem test_decode_zeroize :
    decode 0b0000000000000000000000000000000000000000000000000000000000000101 = .command .zeroize := by decide
theorem test_encode_generate : encode (.generate 10 44) = 0x0000000A000002C3 := by decide
theorem test_table_words : decodeTableWord 64 1 = some .init ∧ decodeTableWord 64 2 = some .reseed ∧
    decodeTableWord 64 3 = some (.generate 0 0) ∧ decodeTableWord 64 4 = some .nextword32 ∧
    decodeTableWord 64 5 = some .zeroize ∧ decodeTableWord 64 0 = none := by decide

/-- V18, the rows that are rejected whatever KEYED is. -/
theorem test_check_rejections (keyed : Bool) :
    check 0x0000000000000000 keyed = .reject .illegalOp ∧ check 0x0000000000000010 keyed = .reject .illegalOp ∧
    check 0x0000000000000016 keyed = .reject .illegalOp ∧ check 0x000000000000000F keyed = .reject .illegalOp ∧
    check 0x0000000000000011 keyed = .reject .reservedField ∧ check 0x0000000080000001 keyed = .reject .reservedField ∧
    check 0x0000000000000105 keyed = .reject .reservedField ∧ check 0x0000000000000014 keyed = .reject .reservedField ∧
    check 0x00000000000002D3 keyed = .reject .badAddlen ∧ check 0x00000000000003F3 keyed = .reject .badAddlen ∧
    check 0x0000000000000403 keyed = .reject .reservedField ∧ check 0x00000000000007F3 keyed = .reject .reservedField := by
  cases keyed <;> decide

/-- V18, the rows that depend on KEYED, and the accepted ones. -/
theorem test_check_keyed : check 0x0000000000000002 false = .reject .notKeyed ∧
    check 0x0000000000000002 true = .command .reseed ∧ check 0x00000000000002C3 false = .reject .notKeyed ∧
    check 0x00000040000002C3 true = .command (.generate 64 44) ∧ check 0x0000000000000004 false = .reject .notKeyed ∧
    check 0xFFFFFFFF00000004 true = .command .nextword32 ∧ check 0xFFFFFFFF00000001 false = .command .init ∧
    check 0x0000000000000005 false = .command .zeroize := by decide

/-! ### The Block Transform -/

/-- V1. -/
theorem test_quarter_round : quarterRound 0x11111111 0x01020304 0x9b8d6f43 0x01234567 =
    (0xea2a92f4, 0xcb1cf8ce, 0x4581472e, 0x5881c4bb) := by decide
/-- V2. -/
theorem test_quarter_round_wraps : quarterRound 0xffffffff 0xffffffff 0xffffffff 0xffffffff =
    (0xf0000ffd, 0x88790878, 0x0110fdef, 0x010ffdf0) := by decide
/-- V2. -/
theorem test_rotl : rotl 0x80000001 16 = 0x00018000 ∧ rotl 0x80000001 7 = 0x000000c0 := by decide
/-- V3, the first and the last bytes. -/
theorem test_block_zero :
    let b := (block Config.defaultSigma (Vector.replicate 8 0) 0 (Vector.replicate 3 0)).toList
    b.take 6 = [0x76, 0xb8, 0xe0, 0xad, 0xa0, 0xf1] ∧ b.drop 60 = [0xb2, 0xee, 0x65, 0x86] := by decide +kernel
/-- V4, the first and the last bytes. -/
theorem test_block_worked_example :
    let b := (block Config.defaultSigma (wordsAt katSeed 0 8) 1 #v[0x09000000, 0x4a000000, 0x00000000]).toList
    b.take 8 = [0x10, 0xf1, 0xe7, 0xe4, 0xd1, 0x3b, 0x59, 0x15] ∧
      b.drop 56 = [0xcb, 0xd0, 0x83, 0xe8, 0xa2, 0x50, 0x3c, 0x4e] := by decide +kernel

/-! ### The stream buffer -/

/-- V24, the row of 61 and 44: three bytes of the old block, then the next block. -/
theorem test_draw_across_blocks :
    let d := draw 44 { streamState with ctr := 1, cur := 61, buf := blockAt streamState 0 }
    d.1.take 8 = [0x0d, 0x5f, 0xed, 0x89, 0xfb, 0x08, 0x00, 0x29] ∧ d.2.ctr = 2 ∧ d.2.cur = 41 := by decide +kernel
/-- V24, the first row: nothing is wanted, nothing happens. -/
theorem test_draw_nothing : draw 0 streamState = ([], streamState) := by decide
/-- V16: the counter wraps inside one draw, with no mark left. -/
theorem test_draw_wraps_counter :
    let d := draw 68 { streamState with ctr := 0xffffffff }
    d.1.drop 60 = [0x72, 0x54, 0x63, 0xe2, 0x10, 0x3a, 0xf1, 0x11] ∧ d.2.ctr = 1 ∧ d.2.cur = 4 := by decide +kernel
/-- V12, `mix` alone. -/
theorem test_mix : (mix [1, 2, 3] v7).key[0] = 0x10f23811 ∧ (mix [1, 2, 3] v7).nonce[2] = 0x0d1eec89 ∧
    (mix [1, 2, 3] v7).cur = 64 := by decide +kernel

/-- V22 (a): 44 bytes of FF complement every bit. -/
theorem test_mix_longest : (mix (List.replicate 44 0xff) v7).key[0] = 0xee0ec5ef ∧
    (mix (List.replicate 44 0xff) v7).nonce[2] = 0xf0e01074 := by decide +kernel

/-! ### The commands -/

/-- V7. -/
theorem test_init_kat : after (exec .init loaded) (fun t => (t.key[0], t.nonce[2], t.ctr, t.cur, t.keyed, t.arg[1])) =
    some (0x11f13a10, 0x0f1fef8b, 0, 64, true, 0) := by decide +kernel
/-- V10: an all-zero seed is legal. -/
theorem test_init_zero_seed : after (exec .init State.reset) (fun t => (t.key[7], t.nonce[0])) =
    some (0xc70d778b, 0x7c5941da) := by decide +kernel
/-- V23: the seed 00 to 2B. -/
theorem test_reseed : after (exec .reseed { v7 with arg := Vector.ofFn fun i => BitVec.ofNat 8 i.val })
    (fun t => (t.key[0], t.nonce[2], statusWord t)) = some (0xf297e947, 0x2fd78166, 1) := by decide +kernel
/-- V20: leftover bytes are discarded. -/
theorem test_reseed_discards : after (exec .reseed (v7Words 1)) (fun t => (t.key[0], t.nonce[2], t.ctr, t.cur)) =
    some (0x1c72852c, 0x032fcaac, 0, 64) := by decide +kernel
/-- V12: OUTLEN 8, additional input 01 02 03. -/
theorem test_generate_with_input :
    after (exec (.generate 8 3) { v7 with arg := Vector.ofFn fun i => if i.val < 3 then BitVec.ofNat 8 (i.val + 1) else 0 })
      (fun t => (t.out, t.key[0], t.nonce[2])) =
    some ([0x19, 0xe8, 0x84, 0x08, 0xc6, 0xfa, 0x3c, 0x37], 0x4e357828, 0x659afd50) := by decide +kernel
/-- V15: the rekey spans two blocks. -/
theorem test_generate_rekey_spans_blocks :
    after (exec (.generate 1 0) (v7Words 15)) (fun t => (t.out, t.key[0], t.nonce[2], t.ctr, t.cur)) =
    some ([0x42], 0xbfd7dda1, 0x17af79b3, 0, 64) := by decide +kernel
/-- V9, the first word. -/
theorem test_nextword32 : after (exec .nextword32 v7) (fun t => (t.result, t.ctr, t.cur, t.key[0], statusWord t)) =
    some (0x1c72852c, 1, 4, 0x11f13a10, 3) := by decide +kernel
/-- V9, the seventeenth word, across a refill. -/
theorem test_nextword32_refill : after (exec .nextword32 (v7Words 16)) (fun t => (t.result, t.ctr, t.cur)) =
    some (0x263333bf, 2, 4) := by decide +kernel
/-- V25. -/
theorem test_zeroize : after (exec .zeroize { v7 with cmdHi := 8, sticky := true, result := 7 })
    (fun t => (t.key[0], t.keyed, t.result, t.cmdHi, statusWord t)) = some (0, false, 0, 8, 4) := by decide +kernel

/-! ### The step, STATUS and the register map -/

/-- V26: NOT_KEYED straight after reset. -/
theorem test_status_not_keyed : after (step (issuing 3 State.reset)) statusWord = some 0x44 := by decide +kernel
/-- V26: BAD_ADDLEN on a keyed core. -/
theorem test_status_bad_addlen : after (step (issuing 0x2D3 v7)) statusWord = some 0x35 := by decide +kernel
/-- P3: INITK writes ARG; its last write, 0x38, carries seed bytes 40 to 43. -/
theorem test_arg_write : after (step { State.reset with pending := [hostWrite Config.defaultParams 0x38 0x31454752] })
    (fun t => (t.arg[39], t.arg[40], t.arg[43])) = some (0, 0x52, 0x31) := by decide +kernel
/-- P2: with TEST_HOOK the debug window shows KEY[0]; without it, 0. -/
theorem test_debug_window :
    after (step { v7 with params := ⟨Config.defaultSigma, true, 0x40000000⟩, pending := [.access ⟨.host, 0x40000080, 4, .read⟩] })
      (·.reads) = some [0x11f13a10] ∧
    after (step { v7 with pending := [.access ⟨.host, 0x80, 4, .read⟩] }) (·.reads) = some [0] := by decide +kernel
/-- The host's placing of a command runs it as the first step after reset. -/
theorem test_fetch_word_runs : after (step (State.reset.withFetchWord 64 1)) (fun t => (t.keyed, t.key[7], t.pending)) =
    some (true, 0xc70d778b, []) := by decide +kernel
/-- And an unkeyed core takes NOT_KEYED on the others. -/
theorem test_fetch_word_rejected :
    after (step (State.reset.withFetchWord 64 4)) (fun t => (t.err, t.sticky)) = some (some .notKeyed, true) := by
  decide +kernel
/-- P4: the stream nonce of INITSTREAM (E4). -/
theorem test_stream_nonce : streamNonce 0x0123456789ABCDEF =
    [0xef, 0xcd, 0xab, 0x89, 0x67, 0x45, 0x23, 0x01, 0x52, 0x47, 0x45, 0x31] := by decide
/-- P1: SELFTEST is the 12 writes of INITK, SETLEN 64 and GENERATE 0. -/
theorem test_selftest_expansion :
    (expand Config.defaultParams .selftest).map (fun es => (es.length, es.take 1, es.drop 11)) =
    some (14, [.access ⟨.host, 0x10, 4, .write 0x03020100⟩],
      [.access ⟨.host, 0x00, 4, .write 0x00000001⟩, .access ⟨.host, 0x04, 4, .write 0x00000040⟩,
       .access ⟨.host, 0x00, 4, .write 0x00000003⟩]) := by decide +kernel
theorem test_generate_mnemonic_limit : expand Config.defaultParams (.generate 45) = none ∧
    expand Config.defaultParams (.generate 44) = some [.access ⟨.host, 0, 4, .write 0x2C3⟩] := by decide +kernel

/-- The spelling of P3's first lines (R69): a comment, a pseudo-instruction, a command and a read. -/
theorem test_assemble_text :
    assembleText Config.defaultParams "SETLEN 0x10 ; OUTLEN\nGENERATE 0\nRD 8".toList =
    some [.access ⟨.host, 4, 4, .write 16⟩, .access ⟨.host, 0, 4, .write 3⟩, .access ⟨.host, 8, 4, .read⟩] := by
  decide +kernel
theorem test_parse_lines : parseLine "GENA 8, [01 02 03]".toList = some (some (.gena 8 [1, 2, 3])) ∧
    parseLine "; no line".toList = some none ∧ parseLine "init".toList = none ∧ parseLine "RD".toList = none := by
  decide +kernel

/-! ### Witnesses: for every statement with hypotheses, concrete values that meet all of them together -/

/-- A state whose next event is `e`. -/
def facing (e : Event) (s : State) : State := { s with pending := [e] }

theorem witness_LaterResetEqualsPowerOn : (facing .reset v7).pending = .reset :: [] := by decide
theorem witness_UnkeyedAcceptsOnlyInitAndZeroize : State.reset.keyed = false ∧
    Instr.init.wf = true ∧ (Instr.generate 64 44).wf = true := by decide
theorem witness_DecodeOfEncodeIsTheCommand : (Instr.generate 0xFFFFFFFF 44).wf = true := by decide
theorem witness_DecodedWordIsItsEncoding : decode 0xFFFFFFFF00000001 = .command .init ∧
    decode 0x0000000A000002C3 = .command (.generate 10 44) := by decide
/-- Both ends of each cause's range, and a word with several causes (V18). -/
theorem witness_RejectionCodeFollowsThePriority :
    check (commandWord 0 0x6) true = .reject .illegalOp ∧ check (commandWord 0 0x403) true = .reject .reservedField ∧
    check (commandWord 0 0x2C3) true = .command (.generate 0 44) ∧ check (commandWord 0 0x2D3) false = .reject .badAddlen ∧
    check (commandWord 0 0x7F3) false = .reject .reservedField ∧ check (commandWord 0 0x5) false = .command .zeroize := by
  decide
theorem witness_CommandWriteRunsTheDecodedCommand :
    (issuing 3 { v7 with cmdHi := 64 }).pending = hostWrite v7.params 0x00 3 :: [] ∧
    decode (commandWord 64 3) = .command (.generate 64 0) := by decide
theorem witness_RejectedCommandOnlyRecordsItsCode :
    (issuing 0x2D3 v7).pending = hostWrite v7.params 0x00 0x2D3 :: [] ∧
    check (commandWord v7.cmdHi 0x2D3) v7.keyed = .reject .badAddlen := by decide
theorem witness_AcceptedCommandCompletes :
    (issuing 2 v7).pending = hostWrite v7.params 0x00 2 :: [] ∧
    check (commandWord v7.cmdHi 2) v7.keyed = .command .reseed := by decide
theorem witness_IdleCoreKeepsEverything : v7.pending = [] := by decide

/-- The two ends of the space are legal, and so is a reset. -/
theorem witness_OnlyIllegalAccessesAreRefused_legal :
    legalEvent v7.params (hostWrite v7.params 0x00 1) = true ∧ legalEvent v7.params (hostRead v7.params 0xFC) = true ∧
    legalEvent v7.params .reset = true ∧ (facing .reset v7).pending = .reset :: [] := by decide
/-- One access for each breach: past the end, misaligned, of another width, of another agent. -/
theorem witness_OnlyIllegalAccessesAreRefused_illegal :
    legalEvent v7.params (hostRead v7.params 0x100) = false ∧ legalEvent v7.params (hostRead v7.params 0xFD) = false ∧
    legalEvent v7.params (.access ⟨.host, 0, 2, .read⟩) = false ∧
    legalEvent v7.params (.access ⟨.other, 0, 4, .read⟩) = false := by decide
theorem test_refusals :
    resolve v7.params ⟨.host, 0x100, 4, .read⟩ = .error .outsideSpace ∧
    resolve v7.params ⟨.host, 0xFD, 4, .read⟩ = .error .misaligned ∧
    resolve v7.params ⟨.host, 0, 2, .read⟩ = .error .wrongWidth ∧
    resolve v7.params ⟨.other, 0, 4, .read⟩ = .error .secondHost ∧
    resolve v7.params ⟨.host, 0xFC, 4, .read⟩ = .ok 0xFC := ⟨rfl, rfl, rfl, rfl, rfl⟩

theorem witness_ReseedMixesAndRekeys : v7.keyed = true := by decide
/-- No input, one byte, and the most. -/
theorem witness_GenerateEmitsThenRekeysFromOneKeystream : v7.keyed = true ∧ (0 : BitVec 6).toNat = 0 ∧
    (1 : BitVec 6).toNat ≠ 0 ∧ (1 : BitVec 6).toNat ≤ 44 ∧ (44 : BitVec 6).toNat ≤ 44 := by decide
/-- Both sides of the clauses on CUR: 60 is the last without a refill, 61 the first with one, 64 the highest. -/
theorem witness_NextwordReturnsFourKeystreamBytes : v7.keyed = true ∧ (v7Words 15).keyed = true ∧
    (v7Words 15).cur.val ≤ 60 ∧ 60 < ({ v7 with cur := 61 } : State).cur.val ∧ 60 < (v7Words 16).cur.val := by decide
theorem witness_UnkeyedCommandsTakeNotKeyed : State.reset.keyed = false ∧ (44 : BitVec 6).toNat ≤ 44 ∧
    Instr.reseed ∈ [Instr.reseed, Instr.generate 1 44, Instr.nextword32] := by decide
theorem witness_CounterWrapIsSilent :
    let s : State := { v7 with ctr := 0xFFFFFFFF }
    s.keyed = true ∧ s.cur = 64 ∧ s.ctr = 0xFFFFFFFF := by decide

/-- The lowest, a middle and the highest cursor of the invariant, on a keyed core. -/
theorem witness_NextwordStaysInsideOneBlock :
    (Inv { v7 with cur := 4 } ∧ ({ v7 with cur := 4 } : State).keyed = true) ∧
    (Inv { v7 with cur := 60 } ∧ ({ v7 with cur := 60 } : State).keyed = true) ∧ (Inv v7 ∧ v7.keyed = true) := by
  refine ⟨⟨⟨?_, ?_, rfl, ?_, ?_⟩, rfl⟩, ⟨⟨?_, ?_, rfl, ?_, ?_⟩, rfl⟩, ⟨⟨?_, ?_, rfl, ?_, ?_⟩, rfl⟩⟩ <;> decide
theorem witness_NextwordRunsKeepKeyAndWalkTheKeystream : v7.keyed = true ∧ (17 : Nat) ≠ 0 := by decide
theorem witness_EmptyGenerateEqualsZeroReseed : v7.cur = 64 ∧ v7.ctr = 0 := by decide
theorem witness_ZeroInputAtBlockEndIsNoInput : v7.cur = 64 ∧ (1 : BitVec 6).toNat ≤ 44 ∧
    ∀ b ∈ v7.arg.toList.take (1 : BitVec 6).toNat, b = 0 := by decide
theorem witness_ShorterGenerateEmitsAPrefix : v7.keyed = true ∧ (16 : Word).toNat ≤ (32 : Word).toNat ∧
    (∃ t, exec (.generate 16 0) v7 = .next t) ∧ (∃ u, exec (.generate 32 0) v7 = .next u) :=
  ⟨rfl, by decide, ⟨_, exec_accepted rfl fun _ => rfl⟩, ⟨_, exec_accepted rfl fun _ => rfl⟩⟩

/-- Every command completes from V7: the hypothesis of the statements on what every command keeps
(CommandsKeepHighWordAndParameters, OnlyGenerateAppendsToOut, OnlyNextwordAndZeroizeWriteResult,
KeyedChangesByInitAndZeroizeOnly). -/
theorem witness_every_command_completes :
    (∃ t, exec .init v7 = .next t) ∧ (∃ t, exec .reseed v7 = .next t) ∧ (∃ t, exec (.generate 64 44) v7 = .next t) ∧
    (∃ t, exec .nextword32 v7 = .next t) ∧ (∃ t, exec .zeroize v7 = .next t) :=
  ⟨⟨_, exec_accepted rfl fun _ => rfl⟩, ⟨_, exec_accepted rfl fun _ => rfl⟩, ⟨_, exec_accepted rfl fun _ => rfl⟩,
    ⟨_, exec_accepted rfl fun _ => rfl⟩, ⟨_, exec_accepted rfl fun _ => rfl⟩⟩
theorem witness_OnlyGenerateAppendsToOut : ∀ o a, Instr.reseed ≠ .generate o a := fun _ _ h => by cases h
/-- An accepted and a rejected write. -/
theorem witness_EveryCommandClearsArg : (issuing 1 loaded).pending = hostWrite loaded.params 0x00 1 :: [] ∧
    (issuing 0 loaded).pending = hostWrite loaded.params 0x00 0 :: [] := by decide

/-- At `CUR = 20`, 44 bytes are left: `n = r` and `n = r + 1`; and with nothing left, `n = 0`, 64 and 65. -/
theorem witness_DrawLeavesTheStatedCursor :
    44 ≤ 64 - ({ v7 with cur := 20 } : State).cur.val ∧ 64 - ({ v7 with cur := 20 } : State).cur.val < 45 ∧
    0 ≤ 64 - v7.cur.val ∧ 64 - v7.cur.val < 64 ∧ 64 - v7.cur.val < 65 := by decide
/-- Lengths 0, 1, 3 (the repetition ends with a partial copy) and 44 (each byte once). -/
theorem witness_MixXorsTheRepeatedInput : ([] : List Byte) = [] ∧ ([0x41] : List Byte) ≠ [] ∧
    ([1, 2, 3] : List Byte) ≠ [] ∧ List.replicate 44 (0xff : Byte) ≠ [] ∧
    (List.replicate 44 (0xff : Byte)).length = 44 := by decide
theorem witness_QuarterRoundOrderInARoundIsFree :
    columnQuads.reverse.Perm columnQuads ∧ diagonalQuads.reverse.Perm diagonalQuads :=
  ⟨List.reverse_perm _, List.reverse_perm _⟩

/-- The first and last key words, the first and last nonce words. -/
theorem witness_ArgWriteFillsItsLanes : ∀ j ∈ ([0, 7, 8, 10] : List (Fin 11)),
    (facing (hostWrite v7.params (0x10 + 4 * j.val) 0x03020100) v7).pending =
      hostWrite v7.params (0x10 + 4 * j.val) 0x03020100 :: [] := fun _ _ => rfl
/-- The empty sequence and the longest one. -/
theorem witness_LoadargFillsTheOperandWindow : ([] : List Byte).length ≤ 44 ∧ katSeed.toList.length ≤ 44 ∧
    ({ v7 with pending := loadArgWrites v7.params katSeed.toList } : State).pending =
      loadArgWrites v7.params katSeed.toList ++ [] := ⟨by decide, by decide, by simp⟩
theorem witness_OtherWritesStoreOrDoNothing :
    (facing (hostWrite v7.params 0x04 64) v7).pending = hostWrite v7.params 0x04 64 :: [] ∧
    ∀ off ∈ [0x08, 0x0C, 0x3C, 0x7C, 0x80, 0xB0, 0xB4, 0xFC], off % 4 = 0 ∧
      (off = 0x08 ∨ off = 0x0C ∨ (0x3C ≤ off ∧ off < 0x100)) ∧
      (facing (hostWrite v7.params off 1) v7).pending = hostWrite v7.params off 1 :: [] := by decide
/-- Both ends of every range of the register map. -/
theorem witness_ReadsReturnTheRegisterMap :
    ∀ off ∈ [0x00, 0x04, 0x08, 0x0C, 0x10, 0x38, 0x3C, 0x7C, 0x80, 0x9C, 0xA0, 0xA8, 0xAC, 0xB0, 0xB4, 0xFC],
      off % 4 = 0 ∧ off < 0x100 ∧ (facing (hostRead v7.params off) v7).pending = hostRead v7.params off :: [] := by decide

/-- A state about to read STATUS twice, the state after the first read, and the state after the second. -/
def twice : State := { v7 with pending := [hostRead v7.params 0x08, hostRead v7.params 0x08] }
theorem witness_RepeatedReadsAgree :
    twice.pending = hostRead twice.params 0x08 :: hostRead twice.params 0x08 :: [] ∧
    ∃ t u, step twice = .next t ∧ step t = .next u :=
  ⟨rfl, _, _, step_hostRead (off := 0x08) rfl (by decide) (by decide),
    step_hostRead (off := 0x08) (rest := []) rfl (by decide) (by decide)⟩

/-- Two states with different KEY, CTR and CUR that agree on all that is public, about to read the debug window. -/
theorem witness_HiddenStateIsUnreadable :
    let s := facing (hostRead v7.params 0x80) { v7 with cur := 4 }
    let t := facing (hostRead v7.params 0x80) { v7 with cur := 60, ctr := 5, key := Vector.replicate 8 0 }
    s.params.testHook = false ∧ PublicAgree s t ∧ s.pending = hostRead s.params 0x80 :: [] ∧ s.key ≠ t.key ∧
      (∃ s' t', step s = .next s' ∧ step t = .next t') :=
  ⟨rfl, by decide, rfl, by decide, _, _, step_hostRead (off := 0x80) rfl (by decide) (by decide),
    step_hostRead (off := 0x80) rfl (by decide) (by decide)⟩

theorem reset_meets_inv : Inv State.reset := by
  refine ⟨?_, ?_, rfl, fun _ => ⟨rfl, rfl, rfl, rfl, rfl, rfl⟩, fun h => absurd rfl h⟩ <;> decide
/-- A state that meets the invariant and a step that has a next state; with STICKY set and no reset at the front, for
the statement on STICKY too. -/
theorem witness_EveryStepKeepsTheInvariant :
    let s := facing (hostRead v7.params 0x08) { v7 with sticky := true }
    Inv s ∧ s.sticky = true ∧ s.pending.head? ≠ some .reset ∧ ∃ t, step s = .next t := by
  refine ⟨⟨?_, ?_, rfl, ?_, ?_⟩, rfl, ?_, _, step_hostRead (off := 0x08) rfl (by decide) (by decide)⟩ <;> decide
theorem witness_StickyIsClearedOnlyByReset :
    (facing .reset v7).pending.head? = some .reset ∧ ∃ t, step (facing .reset v7) = .next t := ⟨rfl, _, rfl⟩
/-- For ParametersNeverChange and CounterStaysCountsOrResets: a step that counts a block. -/
theorem witness_step_counts : completes (step (issuing 4 v7)) = true ∧ after (step (issuing 4 v7)) (·.ctr) = some 1 := by
  decide +kernel
theorem witness_CoreStateMovesOnlyByCommandOrReset :
    let e := hostRead v7.params 0x0C
    (facing e v7).pending = e :: [] ∧ e ≠ .reset ∧ (∀ v, e ≠ hostWrite v7.params 0x00 v) ∧
      ∃ t, step (facing e v7) = .next t :=
  ⟨rfl, by decide, fun v h => by simp [hostRead, hostWrite] at h,
    _, step_hostRead (off := 0x0C) rfl (by decide) (by decide)⟩
theorem witness_UnkeyedCoreEmitsNothing :
    (issuing 3 State.reset).keyed = false ∧ (issuing 3 State.reset).pending.head? ≠ some .reset ∧
    completes (step (issuing 3 State.reset)) = true := by decide +kernel

end Sys2Proof.Tests
end

section
/-! SUPPORT. The byte lanes of the 44-byte representation: `REP` and `LOADREP` undo each other (00_scope.md R14, R15;
20_memory.md R51, R52). -/

namespace Sys2Proof.Machine

/-- Byte `j` of word `i` taken from a byte sequence is that sequence's byte `4i + j` (R14). -/
theorem byteAt_wordsAt {m : Nat} (r : Vector Byte m) (first k : Nat) (h : first + 4 * k ≤ m) (i j : Nat)
    (hi : i < k) (hj : j < 4) : byteAt (wordsAt r first k h)[i] j = r[first + 4 * i + j] := by
  rw [getElem_wordsAt]
  match j, hj with
  | 0, _ => exact byteAt_le32_0 ..
  | 1, _ => exact byteAt_le32_1 ..
  | 2, _ => exact byteAt_le32_2 ..
  | 3, _ => exact byteAt_le32_3 ..

/-- Lane `j` of word `i` among the bytes of a word sequence. -/
theorem bytesOf_lane {k : Nat} (w : Vector Word k) (m : Nat) (h : m ≤ 4 * k) (i j : Nat) (hj : j < 4)
    (hm : 4 * i + j < m) : (bytesOf w m h)[4 * i + j] = byteAt (w[i]'(by omega)) j := by
  have hdiv : (4 * i + j) / 4 = i := by omega
  have hmod : (4 * i + j) % 4 = j := by omega
  simp only [getElem_bytesOf, hdiv, hmod]

/-- `BYTES(WORDS(r)) = r` (R14). -/
theorem bytesOf_wordsAt {m k : Nat} (r : Vector Byte m) (h : 0 + 4 * k ≤ m) (h' : m ≤ 4 * k) :
    bytesOf (wordsAt r 0 k h) m h' = r := by
  ext1 n hn
  rw [getElem_bytesOf, byteAt_wordsAt _ _ _ _ _ _ _ (Nat.mod_lt _ (by decide))]
  congr 1
  omega

/-- Word `i` of the words read back from byte `first = 4q` of `BYTES(w)` on is word `q + i` of `w` (R14). -/
theorem getElem_wordsAt_bytesOf {n : Nat} (w : Vector Word n) {m first q k : Nat} (hm : m ≤ 4 * n)
    (h : first + 4 * k ≤ m) (hq : first = 4 * q) (i : Nat) (hi : i < k) :
    (wordsAt (bytesOf w m hm) first k h)[i] = w[q + i]'(by omega) := by
  apply word_ext
  intro j hj
  have hlane : first + 4 * i + j = 4 * (q + i) + j := by omega
  rw [byteAt_wordsAt _ _ _ _ _ _ hi hj]
  simp only [hlane]
  exact bytesOf_lane w m hm (q + i) j hj (by omega)

/-- The words of the first 32 bytes, then of the last 12, are the words of all 44. -/
theorem wordsAt_append_wordsAt (r : Vector Byte 44) : wordsAt r 0 8 ++ wordsAt r 32 3 = wordsAt r 0 11 := by
  ext1 i hi
  rw [Vector.getElem_append]
  split
  · simp only [getElem_wordsAt]
  · have hpos : 32 + 4 * (i - 8) = 0 + 4 * i := by omega
    simp only [getElem_wordsAt, hpos]

/-- After the eight key words of the representation come the nonce words (R15). -/
theorem getElem_key_append_nonce (s : State) (i : Nat) (hi : i < 3) : (s.key ++ s.nonce)[8 + i] = s.nonce[i] := by
  have hle : 8 ≤ 8 + i := Nat.le_add_right 8 i
  rw [Vector.getElem_append_right (h := by omega) hle]
  simp only [Nat.add_sub_cancel_left]

/-- The representation holds the 44 bytes just loaded (R15). -/
@[simp] theorem rep_loadRep (r : Vector Byte 44) (s : State) : rep (loadRep r s) = r := by
  rw [rep, loadRep_key, loadRep_nonce, wordsAt_append_wordsAt, bytesOf_wordsAt]

/-- KEY is the words of the first 32 bytes of the representation (R51). -/
@[simp] theorem wordsAt_rep_key (s : State) : wordsAt (rep s) 0 8 = s.key := by
  ext1 i hi
  rw [rep, getElem_wordsAt_bytesOf (q := 0) _ _ _ rfl i hi, Vector.getElem_append_left (by omega)]
  simp only [Nat.zero_add]

/-- NONCE is the words of the last 12 bytes of the representation (R51). -/
@[simp] theorem wordsAt_rep_nonce (s : State) : wordsAt (rep s) 32 3 = s.nonce := by
  ext1 i hi
  rw [rep, getElem_wordsAt_bytesOf (q := 8) _ _ _ rfl i hi, getElem_key_append_nonce s i hi]

/-- Loading a state's own representation changes nothing (R15). -/
@[simp] theorem loadRep_rep (s : State) : loadRep (rep s) s = s := by
  simp only [loadRep, wordsAt_rep_key, wordsAt_rep_nonce]

/-- Byte `j` of `KEY[i]` stands at `4i + j` (R52). -/
theorem rep_key_lane (s : State) (i j : Nat) (hi : i < 8) (hj : j < 4) :
    (rep s)[4 * i + j] = byteAt s.key[i] j := by
  simp only [rep]
  rw [bytesOf_lane _ _ _ _ _ hj, Vector.getElem_append_left hi]

/-- Byte `j` of `NONCE[i]` stands at `32 + 4i + j` (R52). -/
theorem rep_nonce_lane (s : State) (i j : Nat) (hi : i < 3) (hj : j < 4) :
    (rep s)[32 + 4 * i + j] = byteAt s.nonce[i] j := by
  have hlane : 32 + 4 * i + j = 4 * (8 + i) + j := by omega
  simp only [rep, hlane]
  rw [bytesOf_lane _ _ _ _ _ hj, getElem_key_append_nonce s i hi]

end Sys2Proof.Machine
end

section
/-! SUPPORT. The parameters stand through a command and a rejection (00_scope.md R10). -/

namespace Sys2Proof.Machine

/-- No command changes the parameters, accepted or rejected. -/
theorem exec_params {i : Instr} {s t : State} (h : exec i s = .next t) : t.params = s.params := by
  obtain ⟨-, c, hrej⟩ | ⟨-, -, hacc⟩ := exec_cases i s
  · cases hrej.symm.trans h
    exact reject_params c s
  · cases hacc.symm.trans h
    rw [accept_params, effectOf_params]

end Sys2Proof.Machine
end

section
/-! THEOREMS. The statements of 00_scope.md. -/

namespace Sys2Proof.Proofs

open Sys2Proof.Machine

/-- Settles O35: both compositions of `REP` and `LOADREP` are the identity, and the lanes are those of KEY, then of
NONCE. -/
theorem repAndLoadrepAreInverse : Obligations.RepAndLoadrepAreInverse := by
  intro s r
  exact ⟨rep_loadRep r s, loadRep_rep s, fun i j => rep_key_lane s i j i.isLt j.isLt,
    fun i j => rep_nonce_lane s i j i.isLt j.isLt⟩

/-- Settles O48, by the cases of a step: every update keeps `params`, reset and the commands included. -/
theorem parametersNeverChange : Obligations.ParametersNeverChange := by
  intro s t h
  obtain ⟨-, rfl⟩ | ⟨e, rest, -, hstep⟩ := step_cases h
  · rfl
  · obtain ⟨-, rfl⟩ | ⟨w, rfl⟩ | ⟨v, rfl⟩ | ⟨j, v, rfl⟩ | rfl | ⟨v, -, ⟨c, rfl⟩ | ⟨i, hexec⟩⟩ := hstep
    · rfl -- the reset
    · rfl -- a read
    · rfl -- a CMD_HI write
    · rfl -- an ARG write
    · rfl -- a write that does nothing
    · exact reject_params c { s with pending := rest }
    · exact exec_params (s := { s with pending := rest }) hexec

end Sys2Proof.Proofs
end

section
/-! SUPPORT. What a command leaves, read off a next state of `exec`: its rejection, or its effect completed; and what
each effect does to OUT, RESULT and KEYED (10_state.md R25, R37, R38). -/

namespace Sys2Proof.Machine

/-- A next state of a command is the rejected state, or the state after the command's effect and completion. -/
theorem exec_next_cases {i : Instr} {s t : State} (h : exec i s = .next t) :
    (needsKey i = true ∧ ∃ c, t = reject c s) ∨
      (i.wf = true ∧ (needsKey i = true → s.keyed = true) ∧ t = accept (effectOf i s)) := by
  obtain ⟨hn, c, hrej⟩ | ⟨hw, hk, hacc⟩ := exec_cases i s
  · exact .inl ⟨hn, c, by cases hrej.symm.trans h; rfl⟩
  · exact .inr ⟨hw, hk, by cases hacc.symm.trans h; rfl⟩

/-- Only the effect of GENERATE writes OUT (R38). -/
theorem effectOf_out_of_ne_generate {i : Instr} (hi : ∀ o a, i ≠ .generate o a) (s : State) :
    (effectOf i s).out = s.out := by
  cases i with
  | init => exact rekey_out _
  | reseed => exact rekey_out _
  | generate outlen addlen => exact absurd rfl (hi outlen addlen)
  | nextword32 => simp only [effectOf, nextwordEffect, draw_out]
  | zeroize => rfl

/-- Only the effects of NEXTWORD32 and ZEROIZE write RESULT (R37). -/
theorem effectOf_result_of_ne {i : Instr} (hnext : i ≠ .nextword32) (hzero : i ≠ .zeroize) (s : State) :
    (effectOf i s).result = s.result := by
  cases i with
  | init => exact rekey_result _
  | reseed => exact rekey_result _
  | generate outlen addlen => simp only [effectOf, generateEffect, rekey_result, emit_result, draw_result, mix_result]
  | nextword32 => exact absurd rfl hnext
  | zeroize => exact absurd rfl hzero

/-- INIT sets KEYED (R25). -/
@[simp] theorem initEffect_keyed (s : State) : (initEffect s).keyed = true := rekey_keyed _

/-- Only the effects of INIT and ZEROIZE write KEYED (R25). -/
theorem effectOf_keyed_of_ne {i : Instr} (hinit : i ≠ .init) (hzero : i ≠ .zeroize) (s : State) :
    (effectOf i s).keyed = s.keyed := by
  cases i with
  | init => exact absurd rfl hinit
  | reseed => exact rekey_keyed _
  | generate outlen addlen => simp only [effectOf, generateEffect, rekey_keyed, emit_keyed, draw_keyed, mix_keyed]
  | nextword32 => simp only [effectOf, nextwordEffect, draw_keyed]
  | zeroize => exact absurd rfl hzero

/-- A command leaves ARG zero, accepted or rejected (R35). -/
theorem exec_arg {i : Instr} {s t : State} (h : exec i s = .next t) : t.arg = zeroBytes 44 := by
  obtain ⟨-, c, rfl⟩ | ⟨-, -, rfl⟩ := exec_next_cases h
  · exact reject_arg c s
  · exact accept_arg _

/-- A command gives a next state (60_exceptions.md R110). -/
theorem exec_completes (i : Instr) (s : State) : ∃ t, exec i s = .next t := by
  obtain ⟨-, c, hrej⟩ | ⟨-, -, hacc⟩ := exec_cases i s
  · exact ⟨_, hrej⟩
  · exact ⟨_, hacc⟩

/-- Issuing a command completes and leaves ARG zero, whatever the word decodes to (R35; 60_exceptions.md R114, R115). -/
theorem issueCommand_clears_arg (v : Word) (s : State) :
    ∃ t, issueCommand v s = .next t ∧ t.arg = zeroBytes 44 := by
  unfold issueCommand
  cases decode (commandWord s.cmdHi v) with
  | reject c => exact ⟨_, rfl, reject_arg c s⟩
  | command i =>
    obtain ⟨t, ht⟩ := exec_completes i s
    exact ⟨t, ht, exec_arg ht⟩

end Sys2Proof.Machine
end

section
/-! SUPPORT. A draw that one block can serve (41_stream_buffer.md R87), and the NEXTWORD32 of a command boundary
(10_state.md R28). -/

namespace Sys2Proof.Machine

/-- With no byte wanted the loop is over. -/
@[simp] theorem drawLoop_zero (fuel : Nat) (s : State) : drawLoop fuel 0 s = ([], s) := by
  cases fuel <;> rfl

/-- A draw that fits in what the buffer holds after a refill is one slice of it, in one pass of the loop. -/
theorem draw_of_le_block {n : Nat} {s : State} (hpos : 0 < n) (hle : n ≤ 64 - (refill s).cur.val) :
    draw n s = (bufferSlice (refill s) n, advance n (refill s)) := by
  obtain ⟨k, rfl⟩ : ∃ k, n = k + 1 := ⟨n - 1, by omega⟩
  simp only [draw, drawLoop, Nat.add_one_ne_zero, if_false, Nat.min_eq_left hle, Nat.sub_self, drawLoop_zero,
    List.append_nil]

/-- After a refill BUF is the old BUF, or the block of CTR (R87). -/
theorem refill_buf_cases (s : State) : (refill s).buf = s.buf ∨ (refill s).buf = blockAt s s.ctr := by
  unfold refill
  split
  · exact .inr rfl
  · exact .inl rfl

/-- A refill keeps CUR a multiple of 4. -/
theorem refill_cur_mod_four {s : State} (h : s.cur.val % 4 = 0) : (refill s).cur.val % 4 = 0 := by
  unfold refill
  split
  · rfl
  · exact h

/-- The word made of four bytes at the cursor. -/
theorem firstWord_bufferSlice {s : State} (h : s.cur.val + 3 < 64) :
    firstWord (bufferSlice s 4) =
      le32 s.buf[s.cur.val] s.buf[s.cur.val + 1] s.buf[s.cur.val + 2] s.buf[s.cur.val + 3] := by
  have hbyte : ∀ j (hj : j < 4), (bufferSlice s 4).getD j 0 = s.buf[s.cur.val + j]'(by omega) := by
    intro j hj
    have hlen : s.cur.val + j < s.buf.toList.length := by simp; omega
    simp [bufferSlice, List.getD_eq_getElem?_getD, List.getElem?_take_of_lt hj, List.getElem?_drop,
      List.getElem?_eq_getElem hlen]
  simp only [firstWord]
  rw [hbyte 0 (by decide), hbyte 1 (by decide), hbyte 2 (by decide), hbyte 3 (by decide)]
  rfl

/-- With CUR a multiple of 4, four more bytes stand in the buffer after a refill. -/
theorem refill_cur_add_three_lt {s : State} (h : s.cur.val % 4 = 0) : (refill s).cur.val + 3 < 64 := by
  have hmod := refill_cur_mod_four h
  have hlt := refill_cur_lt s
  omega

/-- NEXTWORD32 at a CUR that is a multiple of 4 leaves CUR four past where the refill left it. -/
theorem nextwordEffect_cur {s : State} (h : s.cur.val % 4 = 0) :
    (nextwordEffect s).cur.val = (refill s).cur.val + 4 := by
  have hroom := refill_cur_add_three_lt h
  rw [nextwordEffect_eq, draw_of_le_block (by decide) (by omega)]
  exact advance_cur_val (by omega)

/-- NEXTWORD32 at a CUR that is a multiple of 4 reads its word out of the buffer that the refill left. -/
theorem nextwordEffect_result {s : State} (h : s.cur.val % 4 = 0) :
    (nextwordEffect s).result = firstWord (bufferSlice (refill s) 4) := by
  have hroom := refill_cur_add_three_lt h
  rw [nextwordEffect_eq, draw_of_le_block (by decide) (by omega)]

end Sys2Proof.Machine
end

section
/-! SUPPORT. The bits of STATUS (10_state.md R39). -/

namespace Sys2Proof.Machine

/-- Bit 0 of STATUS is KEYED. -/
@[simp] theorem statusWord_bit_keyed (s : State) : (statusWord s).getLsbD 0 = s.keyed := by
  simp only [statusWord, BitVec.getLsbD_append]
  simp

/-- Bit 1 of STATUS is STREAMING. -/
@[simp] theorem statusWord_bit_streaming (s : State) : (statusWord s).getLsbD 1 = streaming s := by
  simp only [statusWord, BitVec.getLsbD_append]
  simp

/-- Bit 2 of STATUS is STICKY. -/
@[simp] theorem statusWord_bit_sticky (s : State) : (statusWord s).getLsbD 2 = s.sticky := by
  simp only [statusWord, BitVec.getLsbD_append]
  simp

/-- Bit 3 of STATUS is reserved. -/
@[simp] theorem statusWord_bit_reserved (s : State) : (statusWord s).getLsbD 3 = false := by
  simp only [statusWord, BitVec.getLsbD_append]
  simp

/-- From bit 4 on STATUS holds the bits of ERR, then zeros. -/
@[simp] theorem statusWord_bit_err (s : State) (j : Nat) : (statusWord s).getLsbD (4 + j) = (errBits s).getLsbD j := by
  simp only [statusWord, BitVec.getLsbD_append]
  rw [if_neg (by omega), if_neg (by omega), if_neg (by omega), if_neg (by omega)]
  have hpos : 4 + j - 1 - 1 - 1 - 1 = j := by omega
  rw [hpos]
  split
  · rfl
  · rw [BitVec.getLsbD_zero, BitVec.getLsbD_of_ge _ _ (by omega)]

/-- The field of bits 7:4 is ERR. -/
theorem statusWord_errField (s : State) : (statusWord s).extractLsb' 4 4 = errBits s := by
  apply BitVec.eq_of_getLsbD_eq
  intro j hj
  rw [BitVec.getLsbD_extractLsb', statusWord_bit_err]
  simp [hj]

end Sys2Proof.Machine
end

section
/-! SUPPORT. A host read: what its step does, and that its word depends on the public fields alone under
`TEST_HOOK = 0` (10_state.md R40; 60_exceptions.md R121). -/

namespace Sys2Proof.Machine

/-- A legal host access is at an aligned offset inside the space (20_memory.md R45). -/
theorem legal_host_offset {p : Params} {off : Nat} {k : AccessKind}
    (h : legalAccess p ⟨.host, p.base + off, 4, k⟩ = true) : off % 4 = 0 ∧ off < 0x100 := by
  simp only [legalAccess, decide_eq_true_eq] at h
  obtain ⟨-, -, -, hlt, hmod⟩ := h
  omega

/-- What is still to come does not show in a register. -/
theorem readReg_pending (s : State) (rest : List Event) (r : Reg) :
    readReg { s with pending := rest } r = readReg s r := by
  cases r <;> rfl

/-- A host read whose step has a next state appended the word of its register to the read log, and no more. -/
theorem step_hostRead_next {s t : State} {off : Nat} {rest : List Event}
    (hp : s.pending = hostRead s.params off :: rest) (h : step s = .next t) :
    t = { s with pending := rest, reads := s.reads ++ [readReg s (regAt off)] } := by
  cases hl : legalAccess s.params ⟨.host, s.params.base + off, 4, .read⟩ with
  | false =>
    obtain ⟨r, hr⟩ := resolve_illegal hl
    simp only [step, runNext, hp, runEvent, hostRead, runAccess, hr] at h
    cases h
  | true =>
    obtain ⟨hmod, hlt⟩ := legal_host_offset hl
    rw [step_hostRead hp hmod hlt, readReg_pending] at h
    cases h
    rfl

/-- With the hook off the debug window shows 0 (R40). -/
theorem debugView_of_hook_off {s : State} (h : s.params.testHook = false) (w : Word) : debugView s w = 0 := by
  simp [debugView, h]

/-- STATUS is a function of KEYED, STREAMING, STICKY and ERR (R39). -/
theorem statusWord_congr {s t : State} (hk : s.keyed = t.keyed) (hs : streaming s = streaming t)
    (hy : s.sticky = t.sticky) (he : s.err = t.err) : statusWord s = statusWord t := by
  simp only [statusWord, errBits, hk, hs, hy, he]

/-- With the hook off, states that agree on what is public read the same word in every register (R121). -/
theorem readReg_congr_of_hook_off {s t : State} (hook : s.params.testHook = false) (h : PublicAgree s t) (r : Reg) :
    readReg s r = readReg t r := by
  obtain ⟨hkeyed, hstreaming, hsticky, herr, hcmdHi, hresult, hparams, -, -⟩ := h
  have hook' : t.params.testHook = false := hparams ▸ hook
  have hdebug : ∀ v w, debugView s v = debugView t w := fun v w =>
    (debugView_of_hook_off hook v).trans (debugView_of_hook_off hook' w).symm
  cases r with
  | cmdLo => rfl
  | cmdHi => exact hcmdHi
  | status => exact statusWord_congr hkeyed hstreaming hsticky herr
  | result => exact hresult
  | arg j => rfl
  | dbgKey i => exact hdebug _ _
  | dbgNonce i => exact hdebug _ _
  | dbgCtr => exact hdebug _ _
  | dbgCur => exact hdebug _ _
  | reserved => rfl

end Sys2Proof.Machine
end

section
/-! SUPPORT. The invariant of every command boundary: reset meets it, and a rejection, a command and a step keep it
(10_state.md R25, R26, R28; 42_drbg_commands.md R103; 60_exceptions.md R115). -/

namespace Sys2Proof.Machine

/-- A keyed state needs only the cursor, the scratch and the recorded code in order. -/
theorem inv_of_keyed {s : State} (hk : s.keyed = true) (hle : 4 ≤ s.cur.val) (hmod : s.cur.val % 4 = 0)
    (hscratch : s.scratch = zeroBytes 44) (herr : s.err ≠ none → s.sticky = true) : Inv s :=
  ⟨hle, hmod, hscratch, fun hk' => absurd (hk.symm.trans hk') Bool.noConfusion, herr⟩

/-- A blank state with no recorded code meets the invariant. -/
theorem inv_of_blank {s : State} (hcur : s.cur = 64) (hscratch : s.scratch = zeroBytes 44) (hblank : UnkeyedIsBlank s)
    (herr : s.err = none) : Inv s := by
  refine ⟨?_, ?_, hscratch, hblank, fun h => absurd herr h⟩
  · simp [hcur]
  · simp [hcur]

/-- Reset meets the invariant (R41). -/
theorem inv_resetWith (p : Params) : Inv (State.resetWith p) :=
  inv_of_blank rfl rfl (fun _ => ⟨rfl, rfl, rfl, rfl, rfl, rfl⟩) rfl

/-- The invariant speaks of the core state, RESULT, STICKY and ERR only: host accesses write none of these. -/
theorem inv_of_access {s : State} (h : Inv s) (cmdHi : Word) (arg : Vector Byte 44) (pending : List Event)
    (reads : List Word) : Inv { s with cmdHi := cmdHi, arg := arg, pending := pending, reads := reads } := h

/-- A rejection records its code together with STICKY (60_exceptions.md R115). -/
theorem inv_reject {s : State} (h : Inv s) (c : RejectCode) : Inv (reject c s) := by
  obtain ⟨hle, hmod, hscratch, hblank, -⟩ := h
  exact ⟨hle, hmod, hscratch, hblank, fun _ => reject_sticky c s⟩

/-- The three commands that end in `rekey` leave CUR at 64 and a zero SCRATCH, on a keyed core. -/
theorem inv_accept_rekey {s : State} (hk : s.keyed = true) : Inv (accept (rekey s)) :=
  inv_of_keyed (by simpa using hk) (by simp) (by simp) rfl (fun h => absurd rfl h)

/-- NEXTWORD32 moves CUR by 4 inside a block. -/
theorem inv_accept_nextword {s : State} (h : Inv s) (hk : s.keyed = true) : Inv (accept (nextwordEffect s)) := by
  obtain ⟨-, hmod, hscratch, -, -⟩ := h
  have hcur := nextwordEffect_cur hmod
  have hrefill := refill_cur_mod_four hmod
  refine inv_of_keyed ?_ ?_ ?_ ?_ (fun h => absurd rfl h)
  · rw [accept_keyed, nextwordEffect_eq]; exact hk
  · rw [accept_cur]; omega
  · rw [accept_cur]; omega
  · rw [accept_scratch, nextwordEffect_eq]; exact hscratch

/-- ZEROIZE leaves the core blank (42_drbg_commands.md R103). -/
theorem inv_accept_zeroize (s : State) : Inv (accept (zeroizeEffect s)) :=
  inv_of_blank rfl rfl (fun _ => ⟨rfl, rfl, rfl, rfl, rfl, rfl⟩) rfl

/-- An accepted command keeps the invariant. -/
theorem inv_accept_effectOf {i : Instr} {s : State} (h : Inv s) (hk : needsKey i = true → s.keyed = true) :
    Inv (accept (effectOf i s)) := by
  cases i with
  | init => exact inv_accept_rekey rfl
  | reseed => exact inv_accept_rekey (hk rfl)
  | generate outlen addlen => exact inv_accept_rekey (by simpa using hk rfl)
  | nextword32 => exact inv_accept_nextword h (hk rfl)
  | zeroize => exact inv_accept_zeroize s

/-- A command keeps the invariant, accepted or rejected. -/
theorem inv_exec {i : Instr} {s t : State} (h : Inv s) (hexec : exec i s = .next t) : Inv t := by
  obtain ⟨-, c, rfl⟩ | ⟨-, hk, rfl⟩ := exec_next_cases hexec
  · exact inv_reject h c
  · exact inv_accept_effectOf h hk

end Sys2Proof.Machine
end

section
/-! THEOREMS. The statements of 10_state.md. -/

namespace Sys2Proof.Proofs

open Sys2Proof.Machine

/-- Settles O45, by the cases of a step: a reset starts the invariant anew, an access writes none of its fields, and a
command keeps it. -/
theorem everyStepKeepsTheInvariant : Obligations.EveryStepKeepsTheInvariant := by
  intro s t h hstep
  obtain ⟨-, rfl⟩ | ⟨e, rest, -, hcases⟩ := step_cases hstep
  · exact h
  · obtain ⟨-, rfl⟩ | ⟨w, rfl⟩ | ⟨v, rfl⟩ | ⟨j, v, rfl⟩ | rfl | ⟨v, -, ⟨c, rfl⟩ | ⟨i, hexec⟩⟩ := hcases
    · exact inv_resetWith s.params
    · exact inv_of_access h _ _ _ _ -- a read
    · exact inv_of_access h _ _ _ _ -- a CMD_HI write
    · exact inv_of_access h _ _ _ _ -- an ARG write
    · exact inv_of_access h _ _ _ _ -- a write that does nothing
    · exact inv_reject (inv_of_access h _ _ rest _) c
    · exact inv_exec (inv_of_access h _ _ rest _) hexec

/-- Settles O21: the block is the buffer after the refill, and the word starts at the cursor the refill leaves. -/
theorem nextwordStaysInsideOneBlock : Obligations.NextwordStaysInsideOneBlock := by
  intro s ⟨_, hmod, _, _, _⟩ hk
  have hroom := refill_cur_add_three_lt hmod
  refine ⟨accept (nextwordEffect s), (refill s).buf, exec_accepted rfl (fun _ => hk), refill_buf_cases s,
    (refill s).cur.val, hroom, ?_, ?_⟩
  · rw [accept_result, nextwordEffect_result hmod, firstWord_bufferSlice hroom]
  · rw [accept_cur, nextwordEffect_cur hmod]

/-- Settles O26: neither a rejection nor an effect writes these fields. -/
theorem commandsKeepHighWordAndParameters : Obligations.CommandsKeepHighWordAndParameters := by
  intro i s t h
  obtain ⟨-, c, rfl⟩ | ⟨-, -, rfl⟩ := exec_next_cases h
  · exact ⟨rfl, rfl, rfl, rfl⟩
  · exact ⟨effectOf_cmdHi i s, effectOf_params i s, effectOf_pending i s, effectOf_reads i s⟩

/-- Settles O27: GENERATE appends the bytes of its draw, and nothing else writes OUT. -/
theorem onlyGenerateAppendsToOut : Obligations.OnlyGenerateAppendsToOut := by
  intro i s t h
  obtain ⟨-, c, rfl⟩ | ⟨-, -, rfl⟩ := exec_next_cases h
  · exact ⟨⟨[], (List.append_nil _).symm⟩, fun _ => rfl⟩
  · refine ⟨?_, fun hi => effectOf_out_of_ne_generate hi s⟩
    by_cases hi : ∀ o a, i ≠ .generate o a
    · exact ⟨[], (effectOf_out_of_ne_generate hi s).trans (List.append_nil _).symm⟩
    · push Not at hi
      obtain ⟨o, a, rfl⟩ := hi
      exact ⟨_, generateEffect_out o a s⟩

/-- Settles O28: a rejection keeps RESULT, and ZEROIZE needs no key, so it is not rejected. -/
theorem onlyNextwordAndZeroizeWriteResult : Obligations.OnlyNextwordAndZeroizeWriteResult := by
  intro i s t h
  obtain ⟨hn, c, rfl⟩ | ⟨-, -, rfl⟩ := exec_next_cases h
  · refine ⟨fun _ _ => rfl, ?_⟩
    rintro rfl
    cases hn
  · refine ⟨fun hnext hzero => effectOf_result_of_ne hnext hzero s, ?_⟩
    rintro rfl
    rfl

/-- Settles O29: a rejection keeps KEYED, and INIT and ZEROIZE need no key, so they are not rejected. -/
theorem keyedChangesByInitAndZeroizeOnly : Obligations.KeyedChangesByInitAndZeroizeOnly := by
  intro i s t h
  obtain ⟨hn, c, rfl⟩ | ⟨-, -, rfl⟩ := exec_next_cases h
  · refine ⟨?_, ?_, fun _ _ => rfl⟩
    · rintro rfl
      cases hn
    · rintro rfl
      cases hn
  · refine ⟨?_, ?_, fun hinit hzero => effectOf_keyed_of_ne hinit hzero s⟩
    · rintro rfl
      exact initEffect_keyed s
    · rintro rfl
      rfl

/-- Settles O30: the write issues a command, and a command leaves ARG zero. -/
theorem everyCommandClearsArg : Obligations.EveryCommandClearsArg := by
  intro s v rest hp
  obtain ⟨t, ht, harg⟩ := issueCommand_clears_arg v { s with pending := rest }
  refine ⟨t, (step_hostWrite hp rfl (by decide)).trans ht, fun i => ?_⟩
  rw [harg]
  exact getElem_zeroBytes 44 i.val i.isLt

/-- Settles O44: both reads append the word of one register, which depends on public fields alone. -/
theorem hiddenStateIsUnreadable : Obligations.HiddenStateIsUnreadable := by
  intro s t off rest hook hagree hp s' t' hs ht
  have hword := readReg_congr_of_hook_off hook hagree (regAt off)
  obtain ⟨hkeyed, hstreaming, hsticky, herr, hcmdHi, hresult, hparams, hreads, hpending⟩ := hagree
  have hpt : t.pending = hostRead t.params off :: rest := by rw [← hpending, hp, hparams]
  obtain rfl := step_hostRead_next hp hs
  obtain rfl := step_hostRead_next hpt ht
  have hlog : s.reads ++ [readReg s (regAt off)] = t.reads ++ [readReg t (regAt off)] := by rw [hword, hreads]
  exact ⟨hlog, hkeyed, hstreaming, hsticky, herr, hcmdHi, hresult, hparams, hlog, rfl⟩

/-- Settles O1: the reset state is written out field by field. -/
theorem resetLeavesTheTableOfValues : Obligations.ResetLeavesTheTableOfValues := by
  intro p
  exact ⟨rfl, rfl, rfl, rfl, rfl, rfl, rfl, rfl, rfl, rfl, rfl, rfl, rfl⟩

/-- Settles O43, bit by bit: ERR stands at bit 4 on, and has nothing at bit 8 on. -/
theorem statusHoldsItsFields : Obligations.StatusHoldsItsFields := by
  intro s
  refine ⟨statusWord_bit_keyed s, statusWord_bit_streaming s, statusWord_bit_sticky s,
    statusWord_bit_reserved s, ?_, ?_⟩
  · intro i hi
    obtain ⟨j, rfl⟩ : ∃ j, i = 4 + j := ⟨i - 4, by omega⟩
    rw [statusWord_bit_err]
    exact BitVec.getLsbD_of_ge _ _ (by omega)
  · rw [statusWord_errField]
    unfold errBits
    cases s.err with
    | none => rfl
    | some c => cases c <;> rfl

/-- Settles O46: reset meets each clause, KEYED being 0. -/
theorem resetMeetsTheInvariant : Obligations.ResetMeetsTheInvariant := inv_resetWith

end Sys2Proof.Proofs
end

section
/-! SUPPORT. The register map by ranges of offsets, and which registers a write reaches (20_memory.md R43, R46, R47). -/

namespace Sys2Proof.Machine

/-- The registers whose write does something (R46). -/
def Reg.writable : Reg → Bool
  | .cmdLo => true
  | .cmdHi => true
  | .arg _ => true
  | .status => false
  | .result => false
  | .dbgKey _ => false
  | .dbgNonce _ => false
  | .dbgCtr => false
  | .dbgCur => false
  | .reserved => false

/-- A write to a read-only or reserved register has no effect (R46, R47). -/
theorem writeReg_of_not_writable {r : Reg} (h : r.writable = false) (s : State) (v : Word) :
    writeReg s v r = .next s := by
  cases r with
  | cmdLo => cases h
  | cmdHi => cases h
  | arg j => cases h
  | status => rfl
  | result => rfl
  | dbgKey i => rfl
  | dbgNonce i => rfl
  | dbgCtr => rfl
  | dbgCur => rfl
  | reserved => rfl

/-- ARG_j stands at `0x10 + 4j`. -/
theorem regAt_arg (j : Fin 11) : regAt (0x10 + 4 * j.val) = .arg j := by
  revert j; decide

/-- The debug view of `KEY[i]` stands at `0x80 + 4i`. -/
theorem regAt_dbgKey (i : Fin 8) : regAt (0x80 + 4 * i.val) = .dbgKey i := by
  revert i; decide

/-- The debug view of `NONCE[i]` stands at `0xA0 + 4i`. -/
theorem regAt_dbgNonce (i : Fin 3) : regAt (0xA0 + 4 * i.val) = .dbgNonce i := by
  revert i; decide

/-- Between the operand window and the debug window everything is reserved. -/
theorem regAt_of_gap {off : Nat} (hlo : 0x3C ≤ off) (hhi : off < 0x80) : regAt off = .reserved := by
  simp only [regAt]
  rw [if_neg (by omega), if_neg (by omega), if_neg (by omega), if_neg (by omega), if_neg (by omega), if_pos hhi]

/-- Past the debug window everything is reserved. -/
theorem regAt_of_tail {off : Nat} (h : 0xB4 ≤ off) : regAt off = .reserved := by
  simp only [regAt]
  repeat rw [if_neg (by omega)]

/-- Past the operand window no register is writable. -/
theorem regAt_not_writable_of_ge {off : Nat} (h : 0x3C ≤ off) : (regAt off).writable = false := by
  simp only [regAt]
  rw [if_neg (by omega), if_neg (by omega), if_neg (by omega), if_neg (by omega), if_neg (by omega)]
  split_ifs <;> rfl

/-- Up to the debug window ARG and the reserved offsets read as 0 (R43). -/
theorem readReg_operandWindow (s : State) {off : Nat} (hmod : off % 4 = 0) (hlo : 0x10 ≤ off) (hhi : off < 0x80) :
    readReg s (regAt off) = 0 := by
  by_cases harg : off < 0x3C
  · obtain ⟨j, rfl⟩ : ∃ j : Fin 11, off = 0x10 + 4 * j.val := ⟨⟨(off - 0x10) / 4, by omega⟩, by simp only; omega⟩
    rw [regAt_arg]
    rfl
  · rw [regAt_of_gap (by omega) hhi]
    rfl

/-- Neither what is still to come nor what earlier reads returned shows in a register. -/
theorem readReg_pending_reads (s : State) (rest : List Event) (log : List Word) (r : Reg) :
    readReg { s with pending := rest, reads := log } r = readReg s r := by
  cases r <;> rfl

end Sys2Proof.Machine
end

section
/-! SUPPORT. What a write of ARG_j leaves in the operand window, and the words a command then reads there
(20_memory.md R44; 42_drbg_commands.md R97). -/

namespace Sys2Proof.Machine

/-- Lane `k` of ARG_j holds byte `k` of the word written. -/
theorem writeArg_lane (j : Fin 11) (v : Word) (s : State) {k : Nat} (hk : k < 4) :
    (writeArg j v s).arg[4 * j.val + k] = byteAt v k := by
  have hdiv : (4 * j.val + k) / 4 = j.val := by omega
  have hmod : (4 * j.val + k) % 4 = k := by omega
  simp only [writeArg, Vector.getElem_ofFn, hdiv, hmod, if_true]

/-- The bytes outside the four lanes of ARG_j stay. -/
theorem writeArg_frame (j : Fin 11) (v : Word) (s : State) {i : Fin 44} (h : i.val / 4 ≠ j.val) :
    (writeArg j v s).arg[i] = s.arg[i] := by
  simp only [writeArg, Fin.getElem_fin, Vector.getElem_ofFn, if_neg h]

/-- A word read at the lanes of ARG_j is the word written there. -/
theorem wordsAt_writeArg (j : Fin 11) (v : Word) (s : State) {first k i : Nat} (h : first + 4 * k ≤ 44) (hi : i < k)
    (hlane : first + 4 * i = 4 * j.val) : (wordsAt (writeArg j v s).arg first k h)[i] = v := by
  apply word_ext
  intro b hb
  rw [byteAt_wordsAt _ _ _ _ _ _ hi hb]
  simp only [hlane]
  exact writeArg_lane j v s hb

end Sys2Proof.Machine
end

section
/-! THEOREMS. The statements of 20_memory.md. -/

namespace Sys2Proof.Proofs

open Sys2Proof.Machine

/-- Settles O38: the step is `writeArg`, which fills the four lanes, and INIT reads its words lane by lane. -/
theorem argWriteFillsItsLanes : Obligations.ArgWriteFillsItsLanes := by
  intro s j v rest hp
  have hstep := step_hostWrite hp (by omega) (by omega)
  rw [regAt_arg] at hstep
  refine ⟨writeArg j v { s with pending := rest }, hstep, rfl, writeArg_lane j v _ (k := 0) (by decide),
    writeArg_lane j v _ (k := 1) (by decide), writeArg_lane j v _ (k := 2) (by decide),
    writeArg_lane j v _ (k := 3) (by decide), fun i hi => writeArg_frame j v _ hi, fun hj => ?_, fun hj => ?_⟩
  · exact wordsAt_writeArg j v _ _ hj (by omega)
  · exact wordsAt_writeArg j v _ _ (by omega) (by omega)

/-- Settles O41: the word is that of the register at the offset, and each clause names that register. -/
theorem readsReturnTheRegisterMap : Obligations.ReadsReturnTheRegisterMap := by
  intro s off rest hmod hlt hp
  have hstep := step_hostRead hp hmod hlt
  rw [readReg_pending] at hstep
  refine ⟨readReg s (regAt off), hstep, ?_, ?_, ?_, ?_, readReg_operandWindow s hmod, ?_, ?_, ?_, ?_, ?_⟩
  · rintro rfl; rfl -- CMD_LO
  · rintro rfl; rfl -- CMD_HI
  · rintro rfl; rfl -- STATUS
  · rintro rfl; rfl -- RESULT
  · rintro i rfl
    rw [regAt_dbgKey]
    rfl
  · rintro i rfl
    rw [regAt_dbgNonce]
    rfl
  · rintro rfl; rfl -- CTR
  · rintro rfl; rfl -- CUR
  · intro h
    rw [regAt_of_tail h]
    rfl

/-- Settles O42: the first read changes only the read log, which no register shows. -/
theorem repeatedReadsAgree : Obligations.RepeatedReadsAgree := by
  intro s t u off rest hp hs ht
  obtain rfl := step_hostRead_next hp hs
  obtain rfl := step_hostRead_next rfl ht
  refine ⟨readReg s (regAt off), ?_⟩
  simp only [readReg_pending_reads, List.append_assoc, List.cons_append, List.nil_append]

/-- Settles O9: a CMD_LO write issues its command, and the word decodes to `i`. -/
theorem commandWriteRunsTheDecodedCommand : Obligations.CommandWriteRunsTheDecodedCommand := by
  intro s v rest i hp hdec
  calc step s = issueCommand v { s with pending := rest } := step_hostWrite hp rfl (by decide)
    _ = exec i { s with pending := rest } := by simp only [issueCommand, hdec]

/-- Settles O40: CMD_HI stores, and the other offsets named are not writable. -/
theorem otherWritesStoreOrDoNothing : Obligations.OtherWritesStoreOrDoNothing := by
  intro s v rest
  refine ⟨fun hp => step_hostWrite hp rfl (by decide), fun off hmod hoff hp => ?_⟩
  have hro : (regAt off).writable = false := by
    obtain rfl | rfl | ⟨hge, -⟩ := hoff
    · rfl -- STATUS
    · rfl -- RESULT
    · exact regAt_not_writable_of_ge hge
  exact (step_hostWrite hp hmod (by omega)).trans (writeReg_of_not_writable hro _ v)

end Sys2Proof.Proofs
end

section
/-! SUPPORT. The fields of a command word as bits of its halves, and the low word as its fields (30_encoding.md R61 to
R63). -/

namespace Sys2Proof

theorem opField_commandWord (hi lo : Word) : opField (commandWord hi lo) = lo.extractLsb' 0 4 :=
  BitVec.extractLsb'_append_eq_of_add_le (by decide)

theorem addlenField_commandWord (hi lo : Word) : addlenField (commandWord hi lo) = lo.extractLsb' 4 6 :=
  BitVec.extractLsb'_append_eq_of_add_le (by decide)

theorem reservedG_commandWord (hi lo : Word) : reservedG (commandWord hi lo) = lo.extractLsb' 10 22 :=
  BitVec.extractLsb'_append_eq_of_add_le (by decide)

theorem reservedN_commandWord (hi lo : Word) : reservedN (commandWord hi lo) = lo.extractLsb' 4 28 :=
  BitVec.extractLsb'_append_eq_of_add_le (by decide)

/-- Two command words are equal when both halves are. -/
theorem commandWord_inj {hi lo hi' lo' : Word} :
    commandWord hi lo = commandWord hi' lo' ↔ hi = hi' ∧ lo = lo' := by
  refine ⟨fun h => ⟨?_, ?_⟩, fun ⟨hhi, hlo⟩ => by rw [hhi, hlo]⟩
  · simpa only [outlenField_commandWord] using congrArg outlenField h
  · simpa only [commandWord, BitVec.extractLsb'_append_eq_right] using congrArg (BitVec.extractLsb' 0 32) h

/-- The low word is its reserved bits of format G, ADDLEN and OP side by side (R62, R63). -/
theorem lowWord_eq_fieldsG (lo : Word) : lo.extractLsb' 10 22 ++ lo.extractLsb' 4 6 ++ lo.extractLsb' 0 4 = lo := by
  rw [BitVec.extractLsb'_append_extractLsb'_eq_extractLsb' (show 10 = 4 + 6 from rfl)]
  exact BitVec.extractLsb'_append_extractLsb' (w := 28) (len := 4)

/-- Three fields of format G make up the low word exactly when they are its fields. -/
theorem fieldsG_eq_iff (res : BitVec 22) (addlen : BitVec 6) (op : BitVec 4) (lo : Word) :
    res ++ addlen ++ op = lo ↔
      res = lo.extractLsb' 10 22 ∧ addlen = lo.extractLsb' 4 6 ∧ op = lo.extractLsb' 0 4 := by
  constructor
  · rintro rfl
    refine ⟨?_, ?_, BitVec.extractLsb'_append_eq_right.symm⟩
    · rw [BitVec.extractLsb'_append_eq_of_le (by decide)]
      exact BitVec.extractLsb'_append_eq_left.symm
    · rw [BitVec.extractLsb'_append_eq_of_le (by decide)]
      exact BitVec.extractLsb'_append_eq_right.symm
  · rintro ⟨rfl, rfl, rfl⟩
    exact lowWord_eq_fieldsG lo

/-- The low word is its reserved bits of format N and OP side by side (R62, R63). -/
theorem lowWord_eq_fieldsN (lo : Word) : lo.extractLsb' 4 28 ++ lo.extractLsb' 0 4 = lo :=
  BitVec.extractLsb'_append_extractLsb' (w := 28) (len := 4)

end Sys2Proof
end

section
/-! SUPPORT. The decoder row by row, each row as an equation, and what it can answer as an inversion lemma
(30_encoding.md R67). -/

namespace Sys2Proof

/-- The commands of format N, without operand fields (R63). -/
def Instr.isFormatN : Instr → Bool
  | .init => true
  | .reseed => true
  | .generate _ _ => false
  | .nextword32 => true
  | .zeroize => true

/-- The row of no command: the OP field alone rejects the word. -/
theorem decode_illegalOp {cmd : BitVec 64} (h : opField cmd = 0x0 ∨ 0x6 ≤ opField cmd) :
    decode cmd = .reject .illegalOp := if_pos h

/-- The row of GENERATE: its reserved bits, then ADDLEN, then the command with both operands. -/
theorem decode_formatG {cmd : BitVec 64} (hop : opField cmd = 0x3) :
    decode cmd =
      if reservedG cmd ≠ 0 then .reject .reservedField
      else if Config.addinMax < (addlenField cmd).toNat then .reject .badAddlen
      else .command (.generate (outlenField cmd) (addlenField cmd)) := by
  simp [decode, hop]

/-- The row of a command of format N: its reserved bits, then the command. -/
theorem decode_formatN {cmd : BitVec 64} {i : Instr} (hN : i.isFormatN = true) (hop : opField cmd = opcode i) :
    decode cmd = if reservedN cmd ≠ 0 then .reject .reservedField else .command i := by
  cases i with
  | generate outlen addlen => cases hN
  | init => simp [decode, hop, opcode]
  | reseed => simp [decode, hop, opcode]
  | nextword32 => simp [decode, hop, opcode]
  | zeroize => simp [decode, hop, opcode]

/-- An OP that is not illegal and not GENERATE's is that of a command of format N (R65). -/
theorem exists_formatN_of_opcode {op : BitVec 4} (hlegal : ¬(op = 0x0 ∨ 0x6 ≤ op)) (hG : op ≠ 0x3) :
    ∃ i : Instr, i.isFormatN = true ∧ op = opcode i := by
  have hop : op = 0x1 ∨ op = 0x2 ∨ op = 0x4 ∨ op = 0x5 := by bv_omega
  obtain rfl | rfl | rfl | rfl := hop
  · exact ⟨.init, rfl, rfl⟩
  · exact ⟨.reseed, rfl, rfl⟩
  · exact ⟨.nextword32, rfl, rfl⟩
  · exact ⟨.zeroize, rfl, rfl⟩

/-- The decoder gives a command in two ways only: by the row of format G, or by a row of format N. -/
theorem decode_command_cases {cmd : BitVec 64} {i : Instr} (h : decode cmd = .command i) :
    (i = .generate (outlenField cmd) (addlenField cmd) ∧ opField cmd = 0x3 ∧ reservedG cmd = 0 ∧
      (addlenField cmd).toNat ≤ Config.addinMax) ∨
    (i.isFormatN = true ∧ opField cmd = opcode i ∧ reservedN cmd = 0) := by
  by_cases hlegal : opField cmd = 0x0 ∨ 0x6 ≤ opField cmd
  · rw [decode_illegalOp hlegal] at h
    cases h
  by_cases hG : opField cmd = 0x3
  · rw [decode_formatG hG] at h
    split_ifs at h with hres hlen
    cases h
    exact .inl ⟨rfl, hG, not_not.mp hres, Nat.not_lt.mp hlen⟩
  · obtain ⟨j, hN, hop⟩ := exists_formatN_of_opcode hlegal hG
    rw [decode_formatN hN hop] at h
    split_ifs at h with hres
    cases h
    exact .inr ⟨hN, hop, not_not.mp hres⟩

end Sys2Proof
end

section
/-! SUPPORT. The decoder and the encoder undo each other (30_encoding.md R62, R63, R67). -/

namespace Sys2Proof

/-- A command of format N has its OP in the low word and nothing else (R63). -/
theorem encodeLo_formatN {i : Instr} (hN : i.isFormatN = true) : encodeLo i = 0#28 ++ opcode i :=
  match i, hN with
  | .init, _ => rfl
  | .reseed, _ => rfl
  | .nextword32, _ => rfl
  | .zeroize, _ => rfl

/-- Format N leaves the high word to the host (R63). -/
theorem encodeHi_formatN {i : Instr} (hN : i.isFormatN = true) (ignored : Word) : encodeHi ignored i = ignored :=
  match i, hN with
  | .init, _ => rfl
  | .reseed, _ => rfl
  | .nextword32, _ => rfl
  | .zeroize, _ => rfl

theorem wf_formatN {i : Instr} (hN : i.isFormatN = true) : i.wf = true :=
  match i, hN with
  | .init, _ => rfl
  | .reseed, _ => rfl
  | .nextword32, _ => rfl
  | .zeroize, _ => rfl

theorem decode_encodeWith_formatN {i : Instr} (hN : i.isFormatN = true) (ignored : Word) :
    decode (encodeWith ignored i) = .command i := by
  have hop : opField (encodeWith ignored i) = opcode i := by
    rw [encodeWith, opField_commandWord, encodeLo_formatN hN, BitVec.extractLsb'_append_eq_right]
  have hres : reservedN (encodeWith ignored i) = 0 := by
    rw [encodeWith, reservedN_commandWord, encodeLo_formatN hN]
    exact BitVec.extractLsb'_append_eq_left
  rw [decode_formatN hN hop, if_neg (not_not.mpr hres)]

theorem decode_encodeWith_generate (ignored outlen : Word) {addlen : BitVec 6}
    (hlen : addlen.toNat ≤ Config.addinMax) :
    decode (encodeWith ignored (.generate outlen addlen)) = .command (.generate outlen addlen) := by
  obtain ⟨hop, -, -, hres⟩ := Laws.EncodedFields.generate outlen addlen ignored
  have hout : outlenField (encodeWith ignored (.generate outlen addlen)) = outlen := outlenField_commandWord ..
  have hadd : addlenField (encodeWith ignored (.generate outlen addlen)) = addlen := by
    have := addlen.isLt
    apply BitVec.eq_of_toNat_eq
    rw [encodeWith, toNat_addlenField, toNat_encodeLo_generate]
    omega
  rw [decode_formatG hop, hout, hadd, if_neg (not_not.mpr hres), if_neg (Nat.not_lt.mpr hlen)]

/-- Decoding undoes encoding. -/
theorem decode_encodeWith {i : Instr} (hwf : i.wf = true) (ignored : Word) :
    decode (encodeWith ignored i) = .command i := by
  cases i with
  | generate outlen addlen => exact decode_encodeWith_generate ignored outlen (of_decide_eq_true hwf)
  | init => exact decode_encodeWith_formatN rfl ignored
  | reseed => exact decode_encodeWith_formatN rfl ignored
  | nextword32 => exact decode_encodeWith_formatN rfl ignored
  | zeroize => exact decode_encodeWith_formatN rfl ignored

/-- Encoding undoes decoding, and only well-formed commands come out of the decoder. -/
theorem wf_encodeWith_of_decode {cmd : BitVec 64} {i : Instr} (h : decode cmd = .command i) :
    i.wf = true ∧ encodeWith (outlenField cmd) i = cmd := by
  obtain ⟨hi, lo, rfl⟩ : ∃ hi lo, commandWord hi lo = cmd := ⟨_, _, commandWord_halves cmd⟩
  simp only [encodeWith, outlenField_commandWord, commandWord_inj]
  obtain ⟨rfl, hop, hres, hlen⟩ | ⟨hN, hop, hres⟩ := decode_command_cases h
  · refine ⟨decide_eq_true hlen, outlenField_commandWord hi lo, ?_⟩
    rw [opField_commandWord] at hop
    rw [reservedG_commandWord] at hres
    calc encodeLo (.generate (outlenField (commandWord hi lo)) (addlenField (commandWord hi lo)))
        = lo.extractLsb' 10 22 ++ lo.extractLsb' 4 6 ++ lo.extractLsb' 0 4 := by
          rw [addlenField_commandWord, hres, hop]; rfl
      _ = lo := lowWord_eq_fieldsG lo
  · refine ⟨wf_formatN hN, encodeHi_formatN hN hi, ?_⟩
    rw [opField_commandWord] at hop
    rw [reservedN_commandWord] at hres
    calc encodeLo i = lo.extractLsb' 4 28 ++ lo.extractLsb' 0 4 := by
          rw [encodeLo_formatN hN, hop, hres]; rfl
      _ = lo := lowWord_eq_fieldsN lo

/-- A word decodes to a command exactly when it is an encoding of it. -/
theorem decode_eq_command_iff {hi lo : Word} {i : Instr} :
    decode (commandWord hi lo) = .command i ↔ i.wf = true ∧ encodeHi hi i = hi ∧ encodeLo i = lo := by
  rw [← commandWord_inj]
  constructor
  · intro h
    simpa only [encodeWith, outlenField_commandWord] using wf_encodeWith_of_decode h
  · rintro ⟨hwf, henc⟩
    exact henc ▸ decode_encodeWith hwf hi

end Sys2Proof
end

section
/-! SUPPORT. The masks and matches of 30_encoding.md R66. -/

namespace Sys2Proof

/-- A command of format N is decoded from its low word and no other, whatever the high word (R66). -/
theorem decode_formatN_iff {hi lo : Word} {i : Instr} (hN : i.isFormatN = true) :
    decode (commandWord hi lo) = .command i ↔ lo = encodeLo i := by
  simp only [decode_eq_command_iff, wf_formatN hN, encodeHi_formatN hN, true_and, eq_comm]

/-- The mask of format G clears ADDLEN (R66). -/
theorem and_maskG (lo : Word) : lo &&& 0xFFFFFC0F = lo.extractLsb' 10 22 ++ 0#6 ++ lo.extractLsb' 0 4 :=
  calc lo &&& 0xFFFFFC0F
      = (lo.extractLsb' 10 22 ++ lo.extractLsb' 4 6 ++ lo.extractLsb' 0 4) &&&
          (BitVec.allOnes 22 ++ 0#6 ++ BitVec.allOnes 4) := by rw [lowWord_eq_fieldsG]; rfl
    _ = lo.extractLsb' 10 22 ++ 0#6 ++ lo.extractLsb' 0 4 := by
      rw [BitVec.and_append, BitVec.and_append, BitVec.and_allOnes, BitVec.and_zero, BitVec.and_allOnes]

/-- GENERATE's row of R66 tests its reserved bits and OP. -/
theorem matchG_iff (lo : Word) :
    lo &&& 0xFFFFFC0F = 0x00000003 ↔ lo.extractLsb' 10 22 = 0 ∧ lo.extractLsb' 0 4 = 0x3 := by
  rw [and_maskG]
  refine (fieldsG_eq_iff _ _ _ 0x00000003).trans ⟨?_, ?_⟩
  · rintro ⟨hres, -, hop⟩
    exact ⟨hres, hop⟩
  · rintro ⟨hres, hop⟩
    exact ⟨hres, rfl, hop⟩

/-- A low word is GENERATE's encoding exactly when it matches R66's row and holds that ADDLEN. -/
theorem encodeLo_generate_eq_iff (outlen : Word) (addlen : BitVec 6) (lo : Word) :
    encodeLo (.generate outlen addlen) = lo ↔ lo &&& 0xFFFFFC0F = 0x00000003 ∧ addlen = lo.extractLsb' 4 6 := by
  rw [matchG_iff]
  refine (fieldsG_eq_iff 0#22 addlen 0x3#4 lo).trans ⟨?_, ?_⟩
  · rintro ⟨hres, hadd, hop⟩
    exact ⟨⟨hres.symm, hop.symm⟩, hadd⟩
  · rintro ⟨⟨hres, hop⟩, hadd⟩
    exact ⟨hres.symm, hadd, hop.symm⟩

/-- GENERATE is decoded exactly from the words of its row with an ADDLEN of at most 44, its operands as they
stand in the word. -/
theorem decode_generate_iff {hi lo outlen : Word} {addlen : BitVec 6} :
    decode (commandWord hi lo) = .command (.generate outlen addlen) ↔
      lo &&& 0xFFFFFC0F = 0x00000003 ∧ addlen.toNat ≤ 44 ∧ outlen = hi ∧ addlen = lo.extractLsb' 4 6 := by
  rw [decode_eq_command_iff, encodeLo_generate_eq_iff]
  have hwf : (Instr.generate outlen addlen).wf = true ↔ addlen.toNat ≤ 44 := decide_eq_true_iff
  rw [hwf]
  constructor
  · rintro ⟨hlen, hout, hmatch, hadd⟩
    exact ⟨hmatch, hlen, hout, hadd⟩
  · rintro ⟨hmatch, hlen, hout, hadd⟩
    exact ⟨hlen, hout, hmatch, hadd⟩

/-- A word is rejected exactly when it decodes to no command. -/
theorem decode_reject_iff {cmd : BitVec 64} : (∃ c, decode cmd = .reject c) ↔ ∀ i, decode cmd ≠ .command i := by
  cases decode cmd with
  | command i => simp
  | reject c => simp

end Sys2Proof
end

section
/-! SUPPORT. The writes of LOADARG (30_encoding.md R70). -/

namespace Sys2Proof.Machine

/-- The word LOADARG writes to ARG_j: bytes `4j` to `4j + 3` of the sequence, zeros after its end (R70). -/
def argWord (bytes : List Byte) (j : Nat) : Word :=
  le32 (bytes.getD (4 * j) 0) (bytes.getD (4 * j + 1) 0) (bytes.getD (4 * j + 2) 0) (bytes.getD (4 * j + 3) 0)

/-- Byte `k` of the word for ARG_j is byte `4j + k` of the padded sequence. -/
theorem byteAt_argWord (bytes : List Byte) (j : Nat) {k : Nat} (hk : k < 4) :
    byteAt (argWord bytes j) k = bytes.getD (4 * j + k) 0 := by
  match k, hk with
  | 0, _ => exact byteAt_le32_0 ..
  | 1, _ => exact byteAt_le32_1 ..
  | 2, _ => exact byteAt_le32_2 ..
  | 3, _ => exact byteAt_le32_3 ..

/-- The last `n` of LOADARG's writes, from ARG_first on. -/
def argWritesFrom (p : Params) (bytes : List Byte) (first n : Nat) : List Event :=
  (List.range' first n).map fun j => hostWrite p (0x10 + 4 * j) (argWord bytes j)

theorem argWritesFrom_succ (p : Params) (bytes : List Byte) (first n : Nat) :
    argWritesFrom p bytes first (n + 1) =
      hostWrite p (0x10 + 4 * first) (argWord bytes first) :: argWritesFrom p bytes (first + 1) n := by
  simp only [argWritesFrom, List.range'_succ, List.map_cons]

theorem loadArgWrites_eq_argWritesFrom (p : Params) (bytes : List Byte) :
    loadArgWrites p bytes = argWritesFrom p bytes 0 11 := by
  rw [argWritesFrom, ← List.range_eq_range']
  rfl

/-- A run goes on from the next state of its first step. -/
theorem run_succ_of_step {s t : State} (h : step s = .next t) (n : Nat) :
    Sys2Proof.core.run (n + 1) s = Sys2Proof.core.run n t := by
  have hcore : Sys2Proof.core.step s = .next t := h
  simp only [Host.Core.run, hcore]

/-- A write of ARG_j changes nothing but the operand window. -/
theorem step_argWrite {s : State} {j : Fin 11} {v : Word} {rest : List Event}
    (hp : s.pending = hostWrite s.params (0x10 + 4 * j.val) v :: rest) :
    step s = .next { s with pending := rest, arg := (writeArg j v s).arg } := by
  rw [step_hostWrite hp (by omega) (by omega), regAt_arg]
  rfl

/-- The padded sequence stands in the operand window below ARG_j. -/
def LoadedBelow (bytes : List Byte) (j : Nat) (arg : Vector Byte 44) : Prop :=
  ∀ i (hi : i < 44), i / 4 < j → arg[i] = bytes.getD i 0

/-- Writing its word to ARG_j loads the sequence one word further. -/
theorem loadedBelow_writeArg {bytes : List Byte} {j : Fin 11} {s : State} (h : LoadedBelow bytes j.val s.arg) :
    LoadedBelow bytes (j.val + 1) (writeArg j (argWord bytes j.val) s).arg := by
  intro i hi hlt
  by_cases hlane : i / 4 = j.val
  · obtain ⟨k, hk, rfl⟩ : ∃ k, k < 4 ∧ i = 4 * j.val + k := ⟨i % 4, by omega, by omega⟩
    rw [writeArg_lane j _ s hk, byteAt_argWord bytes _ hk]
  · exact (writeArg_frame j _ s (i := ⟨i, hi⟩) hlane).trans (h i hi (by omega))

/-- An operand window loaded below ARG_11 holds the whole padded sequence. -/
theorem eq_toBytes_of_loadedBelow {bytes : List Byte} {arg : Vector Byte 44} (h : LoadedBelow bytes 11 arg) :
    arg = toBytes 44 bytes := by
  ext1 i hi
  rw [getElem_toBytes, h i hi (by omega)]

/-- The loop of LOADARG: with the sequence loaded below ARG_first, the remaining writes load the rest of it. -/
theorem run_argWritesFrom (bytes : List Byte) (rest : List Event) (n first : Nat) (hn : first + n = 11) (s : State)
    (hp : s.pending = argWritesFrom s.params bytes first n ++ rest) (hload : LoadedBelow bytes first s.arg) :
    Sys2Proof.core.run n s = .next { s with pending := rest, arg := toBytes 44 bytes } := by
  induction n generalizing first s with
  | zero =>
    obtain rfl : first = 11 := hn
    obtain rfl : s.pending = rest := hp
    rw [← eq_toBytes_of_loadedBelow hload]
    rfl
  | succ n ih =>
    obtain ⟨j, rfl⟩ : ∃ j : Fin 11, first = j.val := ⟨⟨first, by omega⟩, rfl⟩
    rw [argWritesFrom_succ, List.cons_append] at hp
    rw [run_succ_of_step (step_argWrite hp)]
    exact ih (j.val + 1) (by omega) _ rfl (loadedBelow_writeArg hload)

end Sys2Proof.Machine
end

section
/-! THEOREMS. The statements of 30_encoding.md. -/

namespace Sys2Proof.Proofs

open Sys2Proof.Machine

/-- Settles O5: each field of the encoding reads back as the command's. -/
theorem decodeOfEncodeIsTheCommand : Obligations.DecodeOfEncodeIsTheCommand :=
  fun _ ignored hwf => decode_encodeWith hwf ignored

/-- Settles O6: the row that decoded the word fixes every bit of its low half. -/
theorem decodedWordIsItsEncoding : Obligations.DecodedWordIsItsEncoding :=
  fun _ _ h => wf_encodeWith_of_decode h

/-- Settles O7: a row's mask and match say that the low word is the command's encoding, and rejection is what is
left. -/
theorem matchPatternsDecideTheCommand : Obligations.MatchPatternsDecideTheCommand := by
  intro hi lo
  have hmask : lo &&& 0xFFFFFFFF = lo := BitVec.and_allOnes
  rw [hmask]
  refine ⟨decode_formatN_iff rfl, decode_formatN_iff rfl, fun o a => decode_generate_iff, decode_formatN_iff rfl,
    decode_formatN_iff rfl, ?_⟩
  rw [decode_reject_iff]
  constructor
  · intro hnone
    exact ⟨fun hlo => hnone .init ((decode_formatN_iff rfl).mpr hlo),
      fun hlo => hnone .reseed ((decode_formatN_iff rfl).mpr hlo),
      fun hlo => hnone .nextword32 ((decode_formatN_iff rfl).mpr hlo),
      fun hlo => hnone .zeroize ((decode_formatN_iff rfl).mpr hlo),
      fun ⟨hmatch, hlen⟩ => hnone (.generate hi _) (decode_generate_iff.mpr ⟨hmatch, hlen, rfl, rfl⟩)⟩
  · rintro ⟨hinit, hreseed, hnext, hzero, hgen⟩ i hdec
    cases i with
    | init => exact hinit ((decode_formatN_iff rfl).mp hdec)
    | reseed => exact hreseed ((decode_formatN_iff rfl).mp hdec)
    | generate outlen addlen =>
      obtain ⟨hmatch, hlen, -, rfl⟩ := decode_generate_iff.mp hdec
      exact hgen ⟨hmatch, hlen⟩
    | nextword32 => exact hnext ((decode_formatN_iff rfl).mp hdec)
    | zeroize => exact hzero ((decode_formatN_iff rfl).mp hdec)

/-- Settles O39: the eleven writes are LOADARG's loop from ARG_0, below which nothing has to be loaded. -/
theorem loadargFillsTheOperandWindow : Obligations.LoadargFillsTheOperandWindow := by
  intro s bytes rest _ hp
  rw [loadArgWrites_eq_argWritesFrom] at hp
  exact run_argWritesFrom bytes rest 11 0 rfl s hp fun i _ h => absurd h (Nat.not_lt_zero _)

/-- Settles O4: the accepted words are encodings, and the rejected ones fail the decoder's tests on OP, the reserved
bits and ADDLEN. -/
theorem workedEncodingsDecode : Obligations.WorkedEncodingsDecode := by
  refine ⟨decode_encodeWith (i := .init) rfl, decode_encodeWith (i := .reseed) rfl,
    decode_encodeWith (i := .generate 64 0) rfl 0, decode_encodeWith (i := .generate 10 44) rfl 0,
    decode_encodeWith (i := .generate 0 1) rfl 0, decode_encodeWith (i := .nextword32) rfl,
    decode_encodeWith (i := .zeroize) rfl, fun hi => ?_, fun hi => ?_, fun hi => ?_⟩
  · rw [decode_formatG (opField_commandWord hi _), reservedG_commandWord, addlenField_commandWord]
    rfl
  · rw [decode_formatN (i := .init) rfl (opField_commandWord hi _), reservedN_commandWord]
    rfl
  · exact decode_illegalOp (.inl (opField_commandWord hi _))

end Sys2Proof.Proofs
end

section
/-! SUPPORT. The quarter-round on the working state: what it writes and reads, and that quarter-rounds on disjoint
indices commute (40_block_transform.md R76 to R79). -/

namespace Sys2Proof.Machine

/-- The four indices a quarter-round works on (R76). -/
def Quad.indices (q : Quad) : List (Fin 16) := [q.a, q.b, q.c, q.d]

/-- A quarter-round leaves every word outside its four indices (R76). -/
theorem getElem_quarterAt_of_notMem {q : Quad} {i : Fin 16} (hi : i ∉ q.indices) (x : Vector Word 16) :
    (quarterAt x q)[i] = x[i] := by
  obtain ⟨ha, hb, hc, hd⟩ : i ≠ q.a ∧ i ≠ q.b ∧ i ≠ q.c ∧ i ≠ q.d := by simpa [Quad.indices] using hi
  simp [quarterAt, Fin.val_inj, ha.symm, hb.symm, hc.symm, hd.symm]

/-- A word after a quarter-round depends on itself and on the words at the four indices only (R76). -/
theorem getElem_quarterAt_congr {q : Quad} {i : Fin 16} {x y : Vector Word 16} (hq : ∀ j ∈ q.indices, x[j] = y[j])
    (hi : x[i] = y[i]) : (quarterAt x q)[i] = (quarterAt y q)[i] := by
  have ha : x[q.a] = y[q.a] := hq _ (by simp [Quad.indices])
  have hb : x[q.b] = y[q.b] := hq _ (by simp [Quad.indices])
  have hc : x[q.c] = y[q.c] := hq _ (by simp [Quad.indices])
  have hd : x[q.d] = y[q.d] := hq _ (by simp [Quad.indices])
  simp only [Fin.getElem_fin] at hi
  simp only [quarterAt, ha, hb, hc, hd, Fin.getElem_fin, Vector.getElem_set, hi]

/-- At a word outside the indices of `q`, running `q` after or before `p` gives the same. -/
theorem getElem_quarterAt_comm_of_notMem {p q : Quad} (h : p.indices.Disjoint q.indices) {i : Fin 16}
    (hi : i ∉ q.indices) (x : Vector Word 16) : (quarterAt (quarterAt x p) q)[i] = (quarterAt (quarterAt x q) p)[i] :=
  calc (quarterAt (quarterAt x p) q)[i]
    _ = (quarterAt x p)[i] := getElem_quarterAt_of_notMem hi _
    _ = (quarterAt (quarterAt x q) p)[i] :=
      getElem_quarterAt_congr (fun _ hj => (getElem_quarterAt_of_notMem (h hj) x).symm)
        (getElem_quarterAt_of_notMem hi x).symm

/-- Quarter-rounds on disjoint indices commute (R79). -/
theorem quarterAt_comm {p q : Quad} (h : p.indices.Disjoint q.indices) (x : Vector Word 16) :
    quarterAt (quarterAt x p) q = quarterAt (quarterAt x q) p := by
  ext1 n hn
  by_cases hq : (⟨n, hn⟩ : Fin 16) ∈ q.indices
  · exact (getElem_quarterAt_comm_of_notMem h.symm (fun hp => h hp hq) x).symm
  · exact getElem_quarterAt_comm_of_notMem h hq x

/-- Quarter-rounds on pairwise disjoint indices may run in any order (R79). -/
theorem foldl_quarterAt_of_perm {order round : List Quad}
    (hround : round.Pairwise fun p q => p.indices.Disjoint q.indices) (h : order.Perm round) (x : Vector Word 16) :
    order.foldl quarterAt x = round.foldl quarterAt x := by
  have hcomm : ∀ ⦃p⦄, p ∈ round → ∀ ⦃q⦄, q ∈ round →
      ∀ z, quarterAt (quarterAt z p) q = quarterAt (quarterAt z q) p :=
    List.Pairwise.forall_of_forall_of_flip (fun _ _ _ => rfl) (hround.imp fun hd => quarterAt_comm hd)
      (hround.imp fun hd => quarterAt_comm hd.symm)
  exact (h.symm.foldl_eq' (fun p hp q hq z => hcomm hp hq z) x).symm

/-- The index sets of a column round and of a diagonal round are pairwise disjoint (R79). -/
theorem rounds_pairwise_disjoint :
    ∀ round ∈ [columnQuads, diagonalQuads], round.Pairwise fun p q => p.indices.Disjoint q.indices := by
  simp only [List.disjoint_left]
  decide

/-- A state on which the two rounds of a double-round do not commute: one word is not 0. -/
def roundOrderExample : Vector Word 16 := (Vector.replicate 16 0).set 0 1

/-- Between the two rounds the order matters (R79, R80). -/
theorem columnRound_diagonalRound_ne :
    columnRound (diagonalRound roundOrderExample) ≠ diagonalRound (columnRound roundOrderExample) := by decide

end Sys2Proof.Machine
end

section
/-! SUPPORT. The output words and the bytes of a block (40_block_transform.md R81, R82). -/

namespace Sys2Proof.Machine

/-- An output word is the word after 10 double-rounds plus the word of the initial state (R80, R81). -/
theorem getElem_blockWords (sigma : Vector Word 4) (k : Vector Word 8) (c : Word) (n : Vector Word 3) (i : Nat)
    (hi : i < 16) : (blockWords sigma k c n)[i] =
      (doubleRounds 10 (initialState sigma k c n))[i] + (initialState sigma k c n)[i] := by
  simp only [blockWords, Vector.getElem_zipWith]

/-- Byte `4i + j` of a block is byte `j` of output word `i` (R82). -/
theorem block_lane (sigma : Vector Word 4) (k : Vector Word 8) (c : Word) (n : Vector Word 3) {i j : Nat}
    (hi : i < 16) (hj : j < 4) : (block sigma k c n)[4 * i + j] = byteAt (blockWords sigma k c n)[i] j :=
  bytesOf_lane _ _ _ _ _ hj _

end Sys2Proof.Machine
end

section
/-! THEOREMS. The statements of 40_block_transform.md. -/

namespace Sys2Proof.Proofs

open Sys2Proof.Machine

/-- Settles O36: quarter-rounds on disjoint indices commute, so a round is the same under any permutation; one state
tells the two orders of the rounds apart. -/
theorem quarterRoundOrderInARoundIsFree : Obligations.QuarterRoundOrderInARoundIsFree := by
  intro x order
  exact ⟨fun h => foldl_quarterAt_of_perm (rounds_pairwise_disjoint columnQuads (by simp)) h x,
    fun h => foldl_quarterAt_of_perm (rounds_pairwise_disjoint diagonalQuads (by simp)) h x,
    rounds_pairwise_disjoint, rfl, roundOrderExample, columnRound_diagonalRound_ne⟩

/-- Settles O37: a byte of the block is a lane of an output word, and that word is the feed-forward sum. -/
theorem blockFeedsForwardAndSerialises : Obligations.BlockFeedsForwardAndSerialises := by
  intro sigma k c n
  refine ⟨?sigma, ?key, rfl, ?nonce, ?bytes⟩
  case sigma => intro i; fin_cases i <;> rfl
  case key => intro i; fin_cases i <;> rfl
  case nonce => intro i; fin_cases i <;> rfl
  case bytes =>
    intro i j
    rw [block_lane _ _ _ _ i.isLt j.isLt, getElem_blockWords]
    rfl

end Sys2Proof.Proofs
end

section
/-! SUPPORT. The recursion of `draw`, free of the loop's bound: a draw is over, ends in the buffer that a refill leaves,
or empties that buffer and goes on (41_stream_buffer.md R87). -/

namespace Sys2Proof.Machine

/-- With bytes left in the buffer nothing is refilled. -/
theorem refill_of_cur_lt {s : State} (h : s.cur.val < 64) : refill s = s :=
  if_neg (Nat.ne_of_lt h)

/-- At CUR = 64 the block of the present CTR is taken (R87). -/
theorem refill_of_cur_eq {s : State} (h : s.cur.val = 64) :
    refill s = { s with buf := blockAt s s.ctr, ctr := s.ctr + 1, cur := 0 } :=
  if_pos h

/-- The cursor is inside the buffer, or at its end. -/
theorem cur_lt_or_eq (s : State) : s.cur.val < 64 ∨ s.cur.val = 64 :=
  Nat.lt_or_eq_of_le (Nat.le_of_lt_succ s.cur.isLt)

/-- How many bytes one pass of the loop can deliver: what the buffer holds after a refill. -/
def room (s : State) : Nat := 64 - (refill s).cur.val

theorem room_of_cur_lt {s : State} (h : s.cur.val < 64) : room s = 64 - s.cur.val := by
  rw [room, refill_of_cur_lt h]

theorem room_of_cur_eq {s : State} (h : s.cur.val = 64) : room s = 64 := by
  rw [room, refill_of_cur_eq h]
  rfl

/-- Each pass delivers at least one byte. -/
theorem room_pos (s : State) : 0 < room s :=
  Nat.sub_pos_of_lt (refill_cur_lt s)

/-- The longest pass ends at the end of the buffer. -/
theorem advance_room_cur (s : State) : (advance (room s) (refill s)).cur.val = 64 :=
  (advance_cur_val (Nat.le_refl (room s))).trans (Nat.add_sub_cancel' (Nat.le_of_lt (refill_cur_lt s)))

/-- A bound of at least the bytes wanted is no bound. -/
theorem drawLoop_eq_of_le (fuel : Nat) : ∀ (fuel' n : Nat) (s : State), n ≤ fuel → n ≤ fuel' →
    drawLoop fuel n s = drawLoop fuel' n s := by
  induction fuel with
  | zero =>
    intro fuel' n s h _
    obtain rfl := Nat.le_zero.mp h
    rw [drawLoop_zero, drawLoop_zero]
  | succ fuel ih =>
    intro fuel' n s h h'
    cases fuel' with
    | zero =>
      obtain rfl := Nat.le_zero.mp h'
      rw [drawLoop_zero, drawLoop_zero]
    | succ fuel' =>
      have hpos := room_pos s
      simp only [room] at hpos
      simp only [drawLoop]
      split
      · rfl
      · rw [ih fuel' _ _ (by omega) (by omega)]

/-- A draw of more than one pass delivers empties the buffer and goes on with the rest. -/
theorem draw_of_room_lt {n : Nat} {s : State} (h : room s < n) :
    draw n s = (bufferSlice (refill s) (room s) ++ (draw (n - room s) (advance (room s) (refill s))).1,
      (draw (n - room s) (advance (room s) (refill s))).2) := by
  have hpos := room_pos s
  obtain ⟨k, rfl⟩ : ∃ k, n = k + 1 := ⟨n - 1, by omega⟩
  have hmin : min (k + 1) (64 - (refill s).cur.val) = room s := Nat.min_eq_right (Nat.le_of_lt h)
  simp only [draw, drawLoop, Nat.add_one_ne_zero, if_false, hmin]
  rw [drawLoop_eq_of_le k (k + 1 - room s) _ _ (by omega) (Nat.le_refl _)]

/-- A property of every draw: of the empty one, of one that ends in the present buffer, and of a longer one when it
holds of the draw that follows the buffer. -/
theorem draw_induction {motive : Nat → State → Prop} (zero : ∀ s, motive 0 s)
    (last : ∀ n s, 0 < n → n ≤ room s → motive n s)
    (more : ∀ n s, room s < n → motive (n - room s) (advance (room s) (refill s)) → motive n s)
    (n : Nat) (s : State) : motive n s := by
  induction n using Nat.strong_induction_on generalizing s with
  | _ n ih =>
    have hpos := room_pos s
    rcases Nat.eq_zero_or_pos n with rfl | hn
    · exact zero s
    · rcases Nat.lt_or_ge (room s) n with hlt | hle
      · exact more n s hlt (ih _ (by omega) _)
      · exact last n s hn hle

end Sys2Proof.Machine
end

section
/-! SUPPORT. The keystream through one pass of the loop: a refill keeps it, and an advance drops the bytes passed over
(41_stream_buffer.md R91). -/

namespace Sys2Proof.Machine

/-- What is left of BUF. -/
theorem keystream_of_lt {s : State} {i : Nat} (h : i < 64 - s.cur.val) :
    keystream s i = s.buf[s.cur.val + i]'(by omega) :=
  dif_pos h

/-- The blocks of CTR, CTR + 1, and so on after it. -/
theorem keystream_of_ge (s : State) (j : Nat) : keystream s (64 - s.cur.val + j) =
    (blockAt s (s.ctr + BitVec.ofNat 32 (j / 64)))[j % 64]'(Nat.mod_lt _ (by decide)) := by
  rw [keystream, dif_neg (by omega)]
  simp only [Nat.add_sub_cancel_left]

/-- The block a refill takes is the next of the keystream. -/
@[simp] theorem keystream_refill (s : State) (i : Nat) : keystream (refill s) i = keystream s i := by
  rcases cur_lt_or_eq s with hlt | hcur
  · rw [refill_of_cur_lt hlt]
  · have hnext := keystream_of_ge s i
    rw [hcur, Nat.sub_self, Nat.zero_add] at hnext
    rw [hnext, refill_of_cur_eq hcur]
    rcases Nat.lt_or_ge i 64 with hi | hi
    · rw [keystream_of_lt hi]
      simp [Nat.div_eq_of_lt hi, Nat.mod_eq_of_lt hi]
    · obtain ⟨j, rfl⟩ := Nat.exists_eq_add_of_le hi
      have hdiv : (64 + j) / 64 = 1 + j / 64 := by omega
      have hmod : (64 + j) % 64 = j % 64 := by omega
      have hctr : s.ctr + BitVec.ofNat 32 (1 + j / 64) = s.ctr + 1 + BitVec.ofNat 32 (j / 64) := by
        rw [BitVec.ofNat_add, ← BitVec.add_assoc]
        rfl
      simp only [hdiv, hmod, hctr]
      exact keystream_of_ge { s with buf := blockAt s s.ctr, ctr := s.ctr + 1, cur := 0 } j

/-- After an advance the keystream goes on behind the bytes passed over. -/
theorem keystream_advance {m : Nat} {s : State} (hm : m ≤ 64 - s.cur.val) (i : Nat) :
    keystream (advance m s) i = keystream s (m + i) := by
  have hcur := advance_cur_val hm
  rcases Nat.lt_or_ge i (64 - (advance m s).cur.val) with hi | hi
  · rw [keystream_of_lt hi, keystream_of_lt (by omega)]
    simp only [hcur, advance_buf, Nat.add_assoc]
  · obtain ⟨j, rfl⟩ := Nat.exists_eq_add_of_le hi
    have hpos : m + (64 - (advance m s).cur.val + j) = 64 - s.cur.val + j := by omega
    rw [hpos, keystream_of_ge, keystream_of_ge]
    rfl

@[simp] theorem length_keystreamWindow (s : State) (first n : Nat) : (keystreamWindow s first n).length = n := by
  simp [keystreamWindow]

@[simp] theorem getElem_keystreamWindow (s : State) (first n i : Nat) (h : i < (keystreamWindow s first n).length) :
    (keystreamWindow s first n)[i] = keystream s (first + i) := by
  simp [keystreamWindow]

/-- Consecutive windows make one. -/
theorem keystreamWindow_append (s : State) (first n m : Nat) :
    keystreamWindow s first n ++ keystreamWindow s (first + n) m = keystreamWindow s first (n + m) := by
  simp only [keystreamWindow, List.range_add, List.map_append, List.map_map, Nat.add_assoc, Function.comp_def]

/-- A keystream that is another's from byte `k` on has that one's windows, moved by `k`. -/
theorem keystreamWindow_of_shift {s t : State} {k : Nat} (h : ∀ i, keystream t i = keystream s (k + i))
    (first n : Nat) : keystreamWindow t first n = keystreamWindow s (k + first) n := by
  simp only [keystreamWindow, h, Nat.add_assoc]

/-- A slice of the buffer from the cursor on is a window of the keystream. -/
theorem bufferSlice_eq_keystreamWindow {m : Nat} {s : State} (hm : m ≤ 64 - s.cur.val) :
    bufferSlice s m = keystreamWindow s 0 m := by
  apply List.ext_getElem
  · simp only [bufferSlice, List.length_take, List.length_drop, Vector.length_toList, length_keystreamWindow]
    omega
  · intro i _ hi
    rw [length_keystreamWindow] at hi
    rw [getElem_keystreamWindow, Nat.zero_add, keystream_of_lt (by omega)]
    simp [bufferSlice]

/-- One pass of the loop reads the keystream from its start. -/
theorem bufferSlice_refill {m : Nat} {s : State} (hm : m ≤ room s) :
    bufferSlice (refill s) m = keystreamWindow s 0 m := by
  rw [bufferSlice_eq_keystreamWindow hm]
  exact List.map_congr_left fun i _ => keystream_refill s (0 + i)

/-- One pass of the loop leaves the keystream behind the bytes it read. -/
theorem keystream_advance_refill {m : Nat} {s : State} (hm : m ≤ room s) (i : Nat) :
    keystream (advance m (refill s)) i = keystream s (m + i) := by
  rw [keystream_advance hm, keystream_refill]

/-- A draw reads the keystream from its start and leaves it behind the bytes it read (R91). -/
theorem draw_keystream (n : Nat) (s : State) :
    (draw n s).1 = keystreamWindow s 0 n ∧ ∀ i, keystream (draw n s).2 i = keystream s (n + i) := by
  induction n, s using draw_induction with
  | zero s => exact ⟨rfl, fun i => by rw [Nat.zero_add]; rfl⟩
  | last n s hn hle =>
    rw [draw_of_le_block hn hle]
    exact ⟨bufferSlice_refill hle, keystream_advance_refill hle⟩
  | more n s hlt ih =>
    obtain ⟨hbytes, hstream⟩ := ih
    have hpass := keystream_advance_refill (Nat.le_refl (room s))
    have hsum : room s + (n - room s) = n := Nat.add_sub_cancel' (Nat.le_of_lt hlt)
    rw [draw_of_room_lt hlt]
    constructor
    · rw [hbytes, bufferSlice_refill (Nat.le_refl _), keystreamWindow_of_shift hpass, Nat.add_comm _ 0,
        keystreamWindow_append, hsum]
    · intro i
      rw [hstream, hpass, ← Nat.add_assoc, hsum]

/-- The bytes of a draw. -/
theorem draw_bytes (n : Nat) (s : State) : (draw n s).1 = keystreamWindow s 0 n := (draw_keystream n s).1

/-- The keystream after a draw. -/
theorem keystream_draw (n : Nat) (s : State) (i : Nat) : keystream (draw n s).2 i = keystream s (n + i) :=
  (draw_keystream n s).2 i

end Sys2Proof.Machine
end

section
/-! SUPPORT. The state a draw leaves, without and with new blocks (41_stream_buffer.md R92), and what it does to CTR
when it takes at most one (R89, R90). -/

namespace Sys2Proof.Machine

/-- The state after `j` bytes, `j` at least 1, of the blocks that follow the buffer: all `(j + 63) / 64` blocks counted,
the last one in BUF, CUR behind the last byte (R92). -/
def afterBlocks (j : Nat) (s : State) : State :=
  { s with
    ctr := s.ctr + BitVec.ofNat 32 ((j + 63) / 64)
    buf := blockAt s (s.ctr + BitVec.ofNat 32 ((j + 63) / 64 - 1))
    cur := Fin.ofNat 65 (j - 64 * ((j + 63) / 64 - 1)) }

/-- A draw from what is left of the buffer only moves CUR. -/
theorem draw_state_of_le {n : Nat} {s : State} (h : n ≤ 64 - s.cur.val) : (draw n s).2 = advance n s := by
  rcases Nat.eq_zero_or_pos n with rfl | hn
  · have hcur : Fin.ofNat 65 s.cur.val = s.cur := Fin.ofNat_val_eq_self s.cur
    simp only [draw, drawLoop_zero, advance, Nat.add_zero, hcur]
  · have hlt : s.cur.val < 64 := by omega
    rw [draw_of_le_block hn (by rwa [refill_of_cur_lt hlt]), refill_of_cur_lt hlt]

/-- Up to 64 bytes of one new block. -/
theorem advance_refill_of_cur_eq {j : Nat} {s : State} (hcur : s.cur.val = 64) (hj : 0 < j) (hle : j ≤ 64) :
    advance j (refill s) = afterBlocks j s := by
  have hone : (j + 63) / 64 = 1 := by omega
  rw [refill_of_cur_eq hcur]
  simp [advance, afterBlocks, hone]

/-- A whole block before the last one only counts: the 64 bytes after it are those of the next counter. -/
theorem afterBlocks_advance_refill {j : Nat} {s : State} (hcur : s.cur.val = 64) (hj : 64 < j) :
    afterBlocks (j - 64) (advance 64 (refill s)) = afterBlocks j s := by
  obtain ⟨k, hk⟩ : ∃ k, (j + 63) / 64 = k + 2 := ⟨(j + 63) / 64 - 2, by omega⟩
  have hk' : (j - 64 + 63) / 64 = k + 1 := by omega
  have hcount : ∀ c : Nat, s.ctr + 1 + BitVec.ofNat 32 c = s.ctr + BitVec.ofNat 32 (c + 1) := fun c => by
    rw [BitVec.add_assoc, Nat.add_comm c 1, BitVec.ofNat_add]
    rfl
  have hleft : j - 64 - 64 * k = j - 64 * (k + 1) := by omega
  have hblock : ∀ c, blockAt (advance 64 (refill s)) c = blockAt s c := fun c => by
    rw [refill_of_cur_eq hcur]
    rfl
  simp only [afterBlocks, hk, hk', Nat.add_sub_cancel, hleft, hblock]
  simp only [refill_of_cur_eq hcur, advance, hcount]
  rfl

/-- A draw past the buffer leaves the state after the blocks it took. -/
theorem draw_state_of_lt (n : Nat) (s : State) (h : 64 - s.cur.val < n) :
    (draw n s).2 = afterBlocks (n - (64 - s.cur.val)) s := by
  induction n, s using draw_induction with
  | zero s => exact absurd h (Nat.not_lt_zero _)
  | last n s hn hle =>
    rcases cur_lt_or_eq s with hlt | hcur
    · rw [room_of_cur_lt hlt] at hle
      omega
    · have hle64 : n ≤ 64 := room_of_cur_eq hcur ▸ hle
      rw [draw_of_le_block hn hle, advance_refill_of_cur_eq hcur hn hle64, hcur]
      rfl
  | more n s hroom ih =>
    have hend := advance_room_cur s
    rw [draw_of_room_lt hroom, ih (by omega), hend]
    rcases cur_lt_or_eq s with hlt | hcur
    · rw [room_of_cur_lt hlt, refill_of_cur_lt hlt]
      rfl
    · rw [room_of_cur_eq hcur] at hroom ⊢
      rw [hcur]
      exact afterBlocks_advance_refill hcur hroom

/-- A draw of at most 64 bytes counts one block or none (R90). -/
theorem draw_ctr_of_le_block {n : Nat} (h : n ≤ 64) (s : State) :
    (draw n s).2.ctr = s.ctr ∨ (draw n s).2.ctr = s.ctr + 1 := by
  rcases Nat.lt_or_ge (64 - s.cur.val) n with hlt | hle
  · have hone : (n - (64 - s.cur.val) + 63) / 64 = 1 := by omega
    rw [draw_state_of_lt n s hlt, afterBlocks, hone]
    exact .inr rfl
  · rw [draw_state_of_le hle]
    exact .inl rfl

/-- NEXTWORD32 counts one block or none; every other command ends with CTR at 0 (R90). -/
theorem effectOf_ctr_cases (i : Instr) (s : State) :
    (effectOf i s).ctr = s.ctr ∨ (effectOf i s).ctr = s.ctr + 1 ∨ (effectOf i s).ctr = 0 := by
  cases i with
  | init => exact .inr (.inr (rekey_ctr _))
  | reseed => exact .inr (.inr (rekey_ctr _))
  | generate outlen addlen => exact .inr (.inr (rekey_ctr _))
  | nextword32 => exact (draw_ctr_of_le_block (by decide) s).imp_right .inl
  | zeroize => exact .inr (.inr rfl)

/-- A command leaves CTR, counts one block, or leaves 0; a rejection leaves it (R90). -/
theorem exec_ctr_cases {i : Instr} {s t : State} (h : exec i s = .next t) :
    t.ctr = s.ctr ∨ t.ctr = s.ctr + 1 ∨ t.ctr = 0 := by
  obtain ⟨-, c, rfl⟩ | ⟨-, -, rfl⟩ := exec_next_cases h
  · exact .inl (reject_ctr c s)
  · exact effectOf_ctr_cases i s

end Sys2Proof.Machine
end

section
/-! THEOREMS. The statements of 41_stream_buffer.md. -/

namespace Sys2Proof.Proofs

open Sys2Proof.Machine

/-- Settles O31: the first draw leaves the keystream behind its bytes, and the second reads on from there. -/
theorem drawReadsTheKeystream : Obligations.DrawReadsTheKeystream := by
  intro s n m
  refine ⟨draw_bytes n s, ?_⟩
  rw [draw_bytes, keystreamWindow_of_shift (keystream_draw n s), Nat.add_zero]

/-- Settles O32: the two cases of the state after a draw; the last block taken serves 1 to 64 bytes. -/
theorem drawLeavesTheStatedCursor : Obligations.DrawLeavesTheStatedCursor := by
  intro s n r b
  refine ⟨draw_state_of_le, fun hlt => ⟨draw_state_of_lt n s hlt, ?_, ?_⟩⟩
  · omega
  · omega

/-- Settles O50, by the cases of a step: an access and a rejection leave CTR, a reset clears it, and a command leaves
it, counts one block or clears it. -/
theorem counterStaysCountsOrResets : Obligations.CounterStaysCountsOrResets := by
  intro s t h
  obtain ⟨-, rfl⟩ | ⟨e, rest, -, hstep⟩ := step_cases h
  · exact .inl rfl
  · obtain ⟨-, rfl⟩ | ⟨w, rfl⟩ | ⟨v, rfl⟩ | ⟨j, v, rfl⟩ | rfl | ⟨v, -, ⟨c, rfl⟩ | ⟨i, hexec⟩⟩ := hstep
    · exact .inr (.inr rfl) -- the reset
    · exact .inl rfl -- a read
    · exact .inl rfl -- a CMD_HI write
    · exact .inl rfl -- an ARG write
    · exact .inl rfl -- a write that does nothing
    · exact .inl (reject_ctr c _)
    · exact exec_ctr_cases (s := { s with pending := rest }) hexec

/-- Settles O20: the draw takes one block, of the highest counter, and the count to 2^32 is 0. -/
theorem counterWrapIsSilent : Obligations.CounterWrapIsSilent := by
  intro s hk hcur hctr
  have hval : s.cur.val = 64 := by rw [hcur]; rfl
  have hdraw := draw_state_of_lt 4 s (by omega)
  rw [hval] at hdraw
  refine ⟨accept (nextwordEffect s), exec_accepted rfl (fun _ => hk), ?_, ?_, accept_err _, ?_⟩
  · rw [accept_ctr, nextwordEffect_eq, hdraw]
    simp only [afterBlocks, hctr]
    rfl
  · rw [accept_buf, nextwordEffect_eq, hdraw]
    simp only [afterBlocks, hctr]
    rfl
  · rw [accept_sticky, nextwordEffect_eq]

end Sys2Proof.Proofs
end

section
/-! SUPPORT. The check of an encoded command, for either KEYED (60_exceptions.md R112). -/

namespace Sys2Proof

/-- The word of a well-formed command is that command, unless it wants a key and there is none. -/
theorem check_encodeWith {i : Instr} (hwf : i.wf = true) (ignored : Word) (keyed : Bool) :
    check (encodeWith ignored i) keyed = if needsKey i && !keyed then .reject .notKeyed else .command i := by
  rw [check, decode_encodeWith hwf]

end Sys2Proof
end

section
/-! SUPPORT. Exclusive or on the representation, and `mix` (42_drbg_commands.md R96, R98, R108). -/

namespace Sys2Proof.Machine

/-- Exclusive or of byte sequences is that of their words (R98). -/
theorem wordsAt_xorBytes {m : Nat} (a b : Vector Byte m) (first k : Nat) (h : first + 4 * k ≤ m) :
    wordsAt (xorBytes a b) first k h = Vector.zipWith (· ^^^ ·) (wordsAt a first k h) (wordsAt b first k h) := by
  ext1 i hi
  simp only [getElem_wordsAt, getElem_xorBytes, Vector.getElem_zipWith, le32_xor]

@[simp] theorem xorBytes_zeroBytes {m : Nat} (a : Vector Byte m) : xorBytes a (zeroBytes m) = a := by
  ext1 i hi
  rw [getElem_xorBytes, getElem_zeroBytes]
  exact BitVec.xor_zero

/-- The byte the repetition puts at `i` (R96). -/
theorem getElem_cyclic {a : List Byte} (h : a ≠ []) {i : Nat} (hi : i < 44) :
    (cyclic a)[i] = a[i % a.length]'(Nat.mod_lt _ (List.length_pos_iff.mpr h)) := by
  have hlt : i % a.length < a.length := Nat.mod_lt _ (List.length_pos_iff.mpr h)
  rw [cyclic, Vector.getElem_ofFn, List.getD_eq_getElem _ _ hlt]

/-- Zero bytes repeated are zero bytes. -/
theorem cyclic_of_zero {a : List Byte} (h : a ≠ []) (hzero : ∀ b ∈ a, b = 0) : cyclic a = zeroBytes 44 := by
  ext1 i hi
  rw [getElem_cyclic h hi, getElem_zeroBytes]
  exact hzero _ (List.getElem_mem _)

/-- The representation is made of KEY and NONCE alone (00_scope.md R15). -/
theorem rep_congr {s t : State} (hkey : t.key = s.key) (hnonce : t.nonce = s.nonce) : rep t = rep s := by
  rw [rep, rep, hkey, hnonce]

/-- Loading a state's own representation through SCRATCH only clears SCRATCH. -/
theorem loadThroughScratch_rep (s : State) : loadThroughScratch (rep s) s = { s with scratch := zeroBytes 44 } := by
  simp only [loadThroughScratch, loadRep, wordsAt_rep_key, wordsAt_rep_nonce]

/-- `mix` XORs the repeated input into the representation (R96). -/
theorem rep_mix_of_ne_nil {a : List Byte} (h : a ≠ []) (s : State) : rep (mix a s) = xorBytes (rep s) (cyclic a) := by
  have hrep : rep (mix a s) = rep (loadRep (xorBytes (rep s) (cyclic a)) s) :=
    rep_congr (by rw [mix_of_ne_nil h]; rfl) (by rw [mix_of_ne_nil h]; rfl)
  rw [hrep, rep_loadRep]

/-- `mix` of an all-zero input only discards the buffer and clears SCRATCH (R108). -/
theorem mix_of_zero {a : List Byte} (h : a ≠ []) (hzero : ∀ b ∈ a, b = 0) (s : State) :
    mix a s = { s with scratch := zeroBytes 44, cur := 64 } := by
  rw [mix_of_ne_nil h, cyclic_of_zero h hzero, xorBytes_zeroBytes, loadThroughScratch_rep]

/-- At the end of a block an all-zero input leaves the keystream as it is (R108). -/
theorem keystream_mix_of_zero {a : List Byte} {s : State} (hcur : s.cur = 64) (hzero : ∀ b ∈ a, b = 0) (i : Nat) :
    keystream (mix a s) i = keystream s i := by
  by_cases h : a = []
  · rw [h, mix_nil]
  · have hmix := mix_of_zero h hzero s
    exact keystream_congr (by rw [hmix]) (by rw [hmix]) (mix_ctr a s) (mix_buf a s) (by rw [hmix, hcur])
      (mix_params a s) i

end Sys2Proof.Machine
end

section
/-! SUPPORT. What `rekey` leaves, from any state, from the end of a block, and after a draw (42_drbg_commands.md R95,
R100; 41_stream_buffer.md R91). -/

namespace Sys2Proof.Machine

/-- `rekey` installs the next 44 bytes of the keystream (R95). -/
theorem rekey_eq_keystreamWindow (s : State) :
    rekey s = { s with
      key := keyOf (keystreamWindow s 0 44), nonce := nonceOf (keystreamWindow s 0 44), ctr := 0, cur := 64,
      buf := zeroBytes 64, scratch := zeroBytes 44 } := by
  rw [rekey_eq, draw_bytes]
  rfl

/-- At the end of a block the keystream is the block of CTR next (R91). -/
theorem keystream_of_cur_eq {s : State} (hcur : s.cur.val = 64) {i : Nat} (hi : i < 64) :
    keystream s i = (blockAt s s.ctr)[i] := by
  have hctr : s.ctr + BitVec.ofNat 32 (i / 64) = s.ctr := by
    rw [Nat.div_eq_of_lt hi]
    exact BitVec.add_zero _
  have hks := keystream_of_ge s i
  simpa only [hcur, Nat.sub_self, Nat.zero_add, Nat.mod_eq_of_lt hi, hctr] using hks

/-- Equal keystreams have equal windows. -/
theorem keystreamWindow_congr {s t : State} (h : ∀ i, keystream t i = keystream s i) (first n : Nat) :
    keystreamWindow t first n = keystreamWindow s first n := by
  simp only [keystreamWindow, h]

/-- Byte `i` of a window, whatever the default. -/
theorem getD_keystreamWindow (s : State) (first : Nat) {n i : Nat} (hi : i < n) (d : Byte) :
    (keystreamWindow s first n).getD i d = keystream s (first + i) := by
  have hlen : i < (keystreamWindow s first n).length := by rwa [length_keystreamWindow]
  rw [List.getD_eq_getElem _ _ hlen, getElem_keystreamWindow]

/-- At the end of a block the words of the next 44 bytes are words of the block of CTR. -/
theorem wordsAt_keystreamWindow_of_cur_eq {s : State} (hcur : s.cur.val = 64) (first k : Nat)
    (h : first + 4 * k ≤ 44) :
    wordsAt (toBytes 44 (keystreamWindow s 0 44)) first k h = wordsAt (blockAt s s.ctr) first k (by omega) := by
  have hbyte : ∀ j (hj : j < 44), (toBytes 44 (keystreamWindow s 0 44))[j] = (blockAt s s.ctr)[j] := fun j hj => by
    rw [getElem_toBytes, getD_keystreamWindow s 0 hj, Nat.zero_add, keystream_of_cur_eq hcur (by omega)]
  ext1 i hi
  simp only [getElem_wordsAt, hbyte]

/-- `rekey` at the end of a block installs the first 44 bytes of the block of CTR (R97, R98). -/
theorem rekey_of_cur_eq {s : State} (hcur : s.cur = 64) :
    rekey s = { s with
      key := wordsAt (blockAt s s.ctr) 0 8, nonce := wordsAt (blockAt s s.ctr) 32 3, ctr := 0, cur := 64,
      buf := zeroBytes 64, scratch := zeroBytes 44 } := by
  have hval : s.cur.val = 64 := by rw [hcur]; rfl
  rw [rekey_eq_keystreamWindow, keyOf, nonceOf, wordsAt_keystreamWindow_of_cur_eq hval,
    wordsAt_keystreamWindow_of_cur_eq hval]

/-- Output and rekey take consecutive windows of one keystream (R100). -/
theorem rekey_emit_draw_eq (n : Nat) (s : State) :
    rekey (emit (draw n s).1 (draw n s).2) = { s with
      out := s.out ++ keystreamWindow s 0 n, key := keyOf (keystreamWindow s n 44),
      nonce := nonceOf (keystreamWindow s n 44), ctr := 0, cur := 64, buf := zeroBytes 64,
      scratch := zeroBytes 44 } := by
  have hstream : ∀ i, keystream (emit (draw n s).1 (draw n s).2) i = keystream s (n + i) := keystream_draw n s
  rw [rekey_eq_keystreamWindow, keystreamWindow_of_shift hstream, emit_draw_eq, draw_bytes, Nat.add_zero]

end Sys2Proof.Machine
end

section
/-! SUPPORT. The effects of INIT, RESEED and GENERATE as one record update each (42_drbg_commands.md R97 to R100). -/

namespace Sys2Proof.Machine

/-- INIT installs the first 44 bytes of block 0 of the seed (R97). -/
theorem initEffect_eq (s : State) :
    initEffect s = { s with
      key := wordsAt (block s.params.sigma (seedKey s) 0 (seedNonce s)) 0 8
      nonce := wordsAt (block s.params.sigma (seedKey s) 0 (seedNonce s)) 32 3
      ctr := 0, cur := 64, buf := zeroBytes 64, keyed := true, scratch := zeroBytes 44 } := by
  rw [initEffect, rekey_of_cur_eq rfl]
  rfl

/-- KEY XORed with the key words of ARG (R98). -/
def reseedKey (s : State) : Vector Word 8 := Vector.zipWith (· ^^^ ·) s.key (wordsAt s.arg 0 8)

/-- NONCE XORed with the nonce words of ARG (R98). -/
def reseedNonce (s : State) : Vector Word 3 := Vector.zipWith (· ^^^ ·) s.nonce (wordsAt s.arg 32 3)

/-- What RESEED loads is KEY and NONCE XORed with the words of ARG (R98). -/
theorem loadThroughScratch_reseed (s : State) :
    loadThroughScratch (xorBytes (rep s) (reseedSeed s)) s =
      { s with key := reseedKey s, nonce := reseedNonce s, scratch := zeroBytes 44 } := by
  simp only [loadThroughScratch, loadRep, wordsAt_xorBytes, wordsAt_rep_key, wordsAt_rep_nonce]
  rfl

/-- A zero seed changes no word of KEY (R101). -/
theorem reseedKey_of_arg_zero (s : State) : reseedKey { s with arg := zeroBytes 44 } = s.key := by
  rw [reseedKey, ← wordsAt_rep_key, ← wordsAt_xorBytes, xorBytes_zeroBytes]

/-- A zero seed changes no word of NONCE (R101). -/
theorem reseedNonce_of_arg_zero (s : State) : reseedNonce { s with arg := zeroBytes 44 } = s.nonce := by
  rw [reseedNonce, ← wordsAt_rep_nonce, ← wordsAt_xorBytes, xorBytes_zeroBytes]

/-- RESEED installs the first 44 bytes of block 0 of the mixed state (R98). -/
theorem reseedEffect_eq (s : State) :
    reseedEffect s = { s with
      key := wordsAt (block s.params.sigma (reseedKey s) 0 (reseedNonce s)) 0 8
      nonce := wordsAt (block s.params.sigma (reseedKey s) 0 (reseedNonce s)) 32 3
      ctr := 0, cur := 64, buf := zeroBytes 64, scratch := zeroBytes 44 } := by
  rw [reseedEffect, loadThroughScratch_reseed, rekey_of_cur_eq rfl]
  rfl

/-- With ADDLEN 0 there is no additional input (30_encoding.md R64). -/
@[simp] theorem additionalInput_zero (s : State) : additionalInput 0 s = [] := List.take_zero

/-- GENERATE of nothing is a rekey (R101). -/
theorem generateEffect_zero (s : State) : generateEffect 0 0 s = rekey s := by
  have hlen : outputLength 0 = 0 := rfl
  simp only [generateEffect, additionalInput_zero, mix_nil, hlen, draw, drawLoop_zero, emit, List.append_nil]

/-- GENERATE emits and rekeys from the keystream of the state after `mix` (R99, R100). -/
theorem generateEffect_eq (outlen : Word) (addlen : BitVec 6) (s : State) :
    let m := mix (additionalInput addlen s) s
    generateEffect outlen addlen s = { s with
      out := s.out ++ keystreamWindow m 0 outlen.toNat, key := keyOf (keystreamWindow m outlen.toNat 44),
      nonce := nonceOf (keystreamWindow m outlen.toNat 44), ctr := 0, cur := 64, buf := zeroBytes 64,
      scratch := zeroBytes 44 } := by
  simp only [generateEffect, rekey_emit_draw_eq, outputLength, mix_keyed, mix_cmdHi, mix_arg, mix_result, mix_sticky,
    mix_err, mix_out, mix_params, mix_pending, mix_reads]

/-- GENERATE on a keyed core completes with its effect (R99). -/
theorem exec_generate_of_keyed {s : State} (hk : s.keyed = true) (outlen : Word) {addlen : BitVec 6}
    (hle : addlen.toNat ≤ 44) :
    exec (.generate outlen addlen) s = .next (accept (generateEffect outlen addlen s)) :=
  exec_accepted (decide_eq_true hle) fun _ => hk

/-- GENERATE on an unkeyed core takes NOT_KEYED (60_exceptions.md R111). -/
theorem exec_generate_of_unkeyed {s : State} (hk : s.keyed = false) (outlen : Word) {addlen : BitVec 6}
    (hle : addlen.toNat ≤ 44) : exec (.generate outlen addlen) s = .next (reject .notKeyed s) :=
  exec_unkeyed (decide_eq_true hle) rfl hk

end Sys2Proof.Machine
end

section
/-! SUPPORT. NEXTWORD32 and runs of it: the word, the cursor, and the keystream behind the word (42_drbg_commands.md
R102, R109). -/

namespace Sys2Proof.Machine

/-- The word NEXTWORD32 makes of its draw: the next four bytes of the keystream (R102). -/
theorem firstWord_draw (s : State) :
    firstWord (draw 4 s).1 = le32 (keystream s 0) (keystream s 1) (keystream s 2) (keystream s 3) := by
  rw [draw_bytes]
  rfl

/-- From 1 to 64 bytes behind the buffer take one block (41_stream_buffer.md R92). -/
theorem afterBlocks_of_le_block {j : Nat} (hpos : 0 < j) (hle : j ≤ 64) (s : State) :
    afterBlocks j s = { s with ctr := s.ctr + 1, buf := blockAt s s.ctr, cur := Fin.ofNat 65 j } := by
  have hone : (j + 63) / 64 = 1 := by omega
  simp [afterBlocks, hone]

/-- The state after a NEXTWORD32 on a keyed core. -/
def afterNextword (s : State) : State := accept (nextwordEffect s)

/-- NEXTWORD32 on a keyed core completes. -/
theorem exec_nextword32_of_keyed {s : State} (hk : s.keyed = true) : exec .nextword32 s = .next (afterNextword s) :=
  exec_accepted rfl fun _ => hk

/-- NEXTWORD32 writes RESULT, and BUF, CTR and CUR as its draw does; its completion writes ERR and ARG (R102). -/
theorem afterNextword_eq (s : State) :
    afterNextword s = { s with
      result := le32 (keystream s 0) (keystream s 1) (keystream s 2) (keystream s 3), buf := (draw 4 s).2.buf,
      ctr := (draw 4 s).2.ctr, cur := (draw 4 s).2.cur, err := none, arg := zeroBytes 44 } := by
  rw [afterNextword, nextwordEffect_eq, firstWord_draw]
  rfl

/-- A NEXTWORD32 leaves the keystream behind its word (R109). -/
theorem keystream_afterNextword (s : State) (i : Nat) : keystream (afterNextword s) i = keystream s (4 + i) := by
  have h := afterNextword_eq s
  have hdraw : keystream (afterNextword s) i = keystream (draw 4 s).2 i :=
    keystream_congr (by rw [h, draw_key]) (by rw [h, draw_nonce]) (by rw [h]) (by rw [h]) (by rw [h])
      (by rw [h, draw_params]) i
  rw [hdraw, keystream_draw]

/-- `t` has the KEY, NONCE, OUT and KEYED of `s`: what a run of NEXTWORD32 keeps (R109). -/
def RunKeeps (s t : State) : Prop := t.key = s.key ∧ t.nonce = s.nonce ∧ t.out = s.out ∧ t.keyed = s.keyed

/-- A NEXTWORD32 keeps KEY, NONCE, OUT and KEYED (R109). -/
theorem runKeeps_afterNextword (s : State) : RunKeeps s (afterNextword s) := by
  rw [afterNextword_eq]
  exact ⟨rfl, rfl, rfl, rfl⟩

/-- A run of NEXTWORD32 keeps KEY, NONCE, OUT and KEYED, by induction on its length (R109). -/
theorem runKeeps_iterate (s : State) (k : Nat) : RunKeeps s (afterNextword^[k] s) := by
  induction k with
  | zero => exact ⟨rfl, rfl, rfl, rfl⟩
  | succ k ih =>
    obtain ⟨hkey, hnonce, hout, hkeyed⟩ := ih
    obtain ⟨hkey', hnonce', hout', hkeyed'⟩ := runKeeps_afterNextword (afterNextword^[k] s)
    rw [Function.iterate_succ_apply']
    exact ⟨hkey'.trans hkey, hnonce'.trans hnonce, hout'.trans hout, hkeyed'.trans hkeyed⟩

/-- A run of `k` NEXTWORD32 leaves the keystream `4k` bytes on (R109). -/
theorem keystream_iterate (s : State) (k i : Nat) : keystream (afterNextword^[k] s) i = keystream s (4 * k + i) := by
  induction k generalizing i with
  | zero => rw [Nat.mul_zero, Nat.zero_add]; rfl
  | succ k ih => rw [Function.iterate_succ_apply', keystream_afterNextword, ih, Nat.mul_succ, Nat.add_assoc]

/-- A run of NEXTWORD32 on a keyed core completes. -/
theorem execAll_replicate_nextword32 (k : Nat) {s : State} (hk : s.keyed = true) :
    execAll (List.replicate k .nextword32) s = .next (afterNextword^[k] s) := by
  induction k generalizing s with
  | zero => rfl
  | succ k ih =>
    obtain ⟨-, -, -, hkeyed⟩ := runKeeps_afterNextword s
    simp only [List.replicate_succ, execAll, exec_nextword32_of_keyed hk, ih (hkeyed.trans hk),
      Function.iterate_succ_apply]

end Sys2Proof.Machine
end

section
/-! THEOREMS. The statements of 42_drbg_commands.md. -/

namespace Sys2Proof.Proofs

open Sys2Proof.Machine

/-- Settles O33: the draw of `rekey` is a window of the keystream. -/
theorem rekeyInstallsTheNextBytes : Obligations.RekeyInstallsTheNextBytes := rekey_eq_keystreamWindow

/-- Settles O34: the representation after `mix` is the XOR with the repetition of the input. -/
theorem mixXorsTheRepeatedInput : Obligations.MixXorsTheRepeatedInput := by
  intro s a
  refine ⟨fun h => by rw [h, mix_nil], fun h => ⟨fun i => ?_, ?_⟩⟩
  · rw [Fin.getElem_fin, rep_mix_of_ne_nil h, getElem_xorBytes, getElem_cyclic h i.isLt]
    rfl
  · rw [mix_of_ne_nil h]
    rfl

/-- Settles O14: INIT rekeys from the end of a block, at CTR 0. -/
theorem initInstallsTheFirstBlock : Obligations.InitInstallsTheFirstBlock := by
  intro s b
  refine ⟨fun hi => check_encodeWith (i := .init) rfl hi s.keyed, ?_⟩
  rw [exec_accepted rfl (fun h => by cases h), effectOf, initEffect_eq]
  rfl

/-- Settles O15: RESEED rekeys from the end of a block of the mixed state, at CTR 0. -/
theorem reseedMixesAndRekeys : Obligations.ReseedMixesAndRekeys := by
  refine ⟨fun hi => ⟨check_encodeWith (i := .reseed) rfl hi false,
    check_encodeWith (i := .reseed) rfl hi true⟩, ?_⟩
  intro s hk k n b
  rw [exec_accepted rfl (fun _ => hk), effectOf, reseedEffect_eq]
  rfl

/-- Settles O16: the draw and the rekey read on in the keystream of the state after `mix`. -/
theorem generateEmitsThenRekeysFromOneKeystream : Obligations.GenerateEmitsThenRekeysFromOneKeystream := by
  intro s outlen addlen hk hle m
  refine ⟨?_, fun hz => ?_, fun hnz => ⟨?_, mix_ctr _ s⟩⟩
  · rw [exec_generate_of_keyed hk outlen hle, generateEffect_eq]
    rfl
  · have hnil : s.arg.toList.take addlen.toNat = [] := by rw [hz, List.take_zero]
    simp only [m, hnil, mix_nil]
  · have hne : s.arg.toList.take addlen.toNat ≠ [] := by simpa using hnz
    simp only [m, mix_of_ne_nil hne]

/-- Settles O17: four bytes left are a slice of the buffer; with fewer, the draw takes one new block. -/
theorem nextwordReturnsFourKeystreamBytes : Obligations.NextwordReturnsFourKeystreamBytes := by
  refine ⟨fun hi => ⟨check_encodeWith (i := .nextword32) rfl hi false,
    check_encodeWith (i := .nextword32) rfl hi true⟩, ?_⟩
  intro s hk w
  refine ⟨fun hle => ?_, fun hlt => ?_⟩
  · rw [exec_nextword32_of_keyed hk, afterNextword_eq, draw_state_of_le (by omega)]
    rfl
  · have hcur := s.cur.isLt
    have hleft : 4 - (64 - s.cur.val) = s.cur.val - 60 := by omega
    rw [exec_nextword32_of_keyed hk, afterNextword_eq, draw_state_of_lt 4 s (by omega), hleft,
      afterBlocks_of_le_block (by omega) (by omega)]
    rfl

/-- Settles O22: the last word of the run is read where the words before it left the keystream. -/
theorem nextwordRunsKeepKeyAndWalkTheKeystream : Obligations.NextwordRunsKeepKeyAndWalkTheKeystream := by
  intro s k hk
  obtain ⟨hkey, hnonce, hout, hkeyed⟩ := runKeeps_iterate s k
  refine ⟨_, execAll_replicate_nextword32 k hk, hkey, hnonce, hout, hkeyed.trans hk, fun hne => ?_⟩
  obtain ⟨j, rfl⟩ := Nat.exists_eq_succ_of_ne_zero hne
  rw [Function.iterate_succ_apply', afterNextword_eq]
  simp only [keystream_iterate]
  rfl

/-- Settles O23: a zero seed XORs nothing in, and at CUR = 64 and CTR = 0 RESEED's own resets change nothing before
its rekey. An unkeyed core rejects both. -/
theorem emptyGenerateEqualsZeroReseed : Obligations.EmptyGenerateEqualsZeroReseed := by
  intro s hcur hctr
  change exec (.generate 0 0) s = exec .reseed { s with arg := zeroBytes 44 }
  rcases Bool.eq_false_or_eq_true s.keyed with hk | hk
  · rw [exec_generate_of_keyed hk 0 (by decide), generateEffect_zero, rekey_of_cur_eq hcur,
      exec_accepted (i := .reseed) (s := { s with arg := zeroBytes 44 }) rfl (fun _ => hk), effectOf, reseedEffect_eq,
      reseedKey_of_arg_zero, reseedNonce_of_arg_zero, hctr]
    rfl
  · rw [exec_generate_of_unkeyed hk 0 (by decide),
      exec_unkeyed (i := .reseed) (s := { s with arg := zeroBytes 44 }) rfl rfl hk]
    rfl

/-- Settles O24: the keystream after `mix` is that of before. An unkeyed core rejects both. -/
theorem zeroInputAtBlockEndIsNoInput : Obligations.ZeroInputAtBlockEndIsNoInput := by
  intro s outlen addlen hcur hle hzero
  have hmix := keystreamWindow_congr (keystream_mix_of_zero hcur hzero)
  rcases Bool.eq_false_or_eq_true s.keyed with hk | hk
  · rw [exec_generate_of_keyed hk outlen hle, exec_generate_of_keyed hk outlen (by decide), generateEffect_eq,
      generateEffect_eq, additionalInput_zero, mix_nil, additionalInput, hmix, hmix]
  · rw [exec_generate_of_unkeyed hk outlen hle, exec_generate_of_unkeyed hk outlen (by decide)]

/-- Settles O25: both outputs are windows of one keystream, from its start. -/
theorem shorterGenerateEmitsAPrefix : Obligations.ShorterGenerateEmitsAPrefix := by
  intro s t u n m hk hle ht hu
  have hsum : n.toNat + (m.toNat - n.toNat) = m.toNat := Nat.add_sub_cancel' hle
  rw [exec_generate_of_keyed hk _ (by decide)] at ht hu
  cases ht
  cases hu
  refine ⟨keystreamWindow s (0 + n.toNat) (m.toNat - n.toNat), ?_, length_keystreamWindow ..⟩
  simp only [accept_out, generateEffect_out, additionalInput_zero, mix_nil, draw_bytes, List.append_assoc,
    keystreamWindow_append, hsum]

/-- Settles O18: what ZEROIZE and its completion write is the reset value of each field but those named. -/
theorem zeroizeLeavesTheResetState : Obligations.ZeroizeLeavesTheResetState := by
  intro s
  exact ⟨fun hi => check_encodeWith (i := .zeroize) rfl hi s.keyed, exec_accepted rfl (fun h => by cases h)⟩

end Sys2Proof.Proofs
end

section
/-! SUPPORT. What the check of a command word can answer, in terms of the decoder and KEYED (60_exceptions.md R112). -/

namespace Sys2Proof

/-- A word the decoder rejects is rejected with the same code, whatever KEYED is. -/
theorem check_of_decode_reject {cmd : BitVec 64} {c : RejectCode} (h : decode cmd = .reject c) (keyed : Bool) :
    check cmd keyed = .reject c := by
  rw [check, h]

/-- A decoded command is accepted, unless it needs a key and there is none. -/
theorem check_of_decode_command {cmd : BitVec 64} {i : Instr} (h : decode cmd = .command i) (keyed : Bool) :
    check cmd keyed = if needsKey i = true ∧ keyed = false then .reject .notKeyed else .command i := by
  simp only [check, h, Bool.and_eq_true, Bool.not_eq_true']

/-- The check accepts exactly the command the word decodes to, if the core has the key it needs. -/
theorem check_eq_command_iff {cmd : BitVec 64} {keyed : Bool} {i : Instr} :
    check cmd keyed = .command i ↔ decode cmd = .command i ∧ (needsKey i = true → keyed = true) := by
  cases hdec : decode cmd with
  | reject c => simp [check_of_decode_reject hdec]
  | command j =>
    rw [check_of_decode_command hdec, Decoded.command.injEq]
    split_ifs with hrej
    · obtain ⟨hn, rfl⟩ := hrej
      refine iff_of_false not_false ?_
      rintro ⟨rfl, hk⟩
      exact Bool.noConfusion (hk hn)
    · rw [Decoded.command.injEq, iff_self_and]
      rintro rfl hn
      simpa [hn] using hrej

/-- The check rejects with the decoder's code, or with NOT_KEYED a command that lacks its key. -/
theorem check_reject_cases {cmd : BitVec 64} {keyed : Bool} {c : RejectCode} (h : check cmd keyed = .reject c) :
    decode cmd = .reject c ∨
      (c = .notKeyed ∧ keyed = false ∧ ∃ i, decode cmd = .command i ∧ needsKey i = true) := by
  cases hdec : decode cmd with
  | reject d => exact .inl ((check_of_decode_reject hdec keyed).symm.trans h)
  | command i =>
    rw [check_of_decode_command hdec] at h
    split_ifs at h with hrej
    cases h
    obtain ⟨hn, hk⟩ := hrej
    exact .inr ⟨rfl, hk, i, rfl, hn⟩

end Sys2Proof
end

section
/-! SUPPORT. The decoder's tests on the low word as a number, in the order of 60_exceptions.md R113, and KEYED after
them (R112). -/

namespace Sys2Proof

theorem opField_eq_iff (hi lo : Word) (op : BitVec 4) :
    opField (commandWord hi lo) = op ↔ lo.toNat % 16 = op.toNat := by
  rw [← toNat_opField hi lo, BitVec.toNat_inj]

theorem reservedG_ne_zero_iff (hi lo : Word) : reservedG (commandWord hi lo) ≠ 0 ↔ lo.toNat / 1024 ≠ 0 := by
  rw [← toNat_reservedG hi lo, ne_eq, ne_eq, ← BitVec.toNat_inj]
  rfl

theorem reservedN_ne_zero_iff (hi lo : Word) : reservedN (commandWord hi lo) ≠ 0 ↔ lo.toNat / 16 ≠ 0 := by
  rw [← toNat_reservedN hi lo, ne_eq, ne_eq, ← BitVec.toNat_inj]
  rfl

/-- An OP that no command has (R111). -/
def IllegalOp (lo : Word) : Prop := lo.toNat % 16 = 0 ∨ 6 ≤ lo.toNat % 16

/-- A reserved bit of the word's format is 1 (R111). -/
def ReservedBitSet (lo : Word) : Prop :=
  (lo.toNat % 16 = 3 ∧ lo.toNat / 1024 ≠ 0) ∨ (lo.toNat % 16 ≠ 3 ∧ lo.toNat / 16 ≠ 0)

/-- GENERATE with an ADDLEN above 44 (R111). -/
def AddlenTooLong (lo : Word) : Prop := lo.toNat % 16 = 3 ∧ 45 ≤ lo.toNat / 16 % 64

/-- The OP of a command that needs a key, on an unkeyed core (R111). -/
def KeyMissing (lo : Word) (keyed : Bool) : Prop :=
  (lo.toNat % 16 = 2 ∨ lo.toNat % 16 = 3 ∨ lo.toNat % 16 = 4) ∧ keyed = false

variable {hi lo : Word}

theorem illegalOp_iff (hi lo : Word) :
    IllegalOp lo ↔ opField (commandWord hi lo) = 0x0 ∨ 0x6 ≤ opField (commandWord hi lo) := by
  rw [opField_eq_iff, BitVec.le_def, toNat_opField]
  rfl

theorem decode_of_illegalOp (hop : IllegalOp lo) : decode (commandWord hi lo) = .reject .illegalOp :=
  decode_illegalOp ((illegalOp_iff hi lo).mp hop)

/-- A legal OP other than GENERATE's is that of a command of format N. -/
theorem decode_of_legal_formatN (hop : ¬IllegalOp lo) (hG : lo.toNat % 16 ≠ 3) :
    ∃ i, decode (commandWord hi lo) =
      if reservedN (commandWord hi lo) ≠ 0 then .reject .reservedField else .command i := by
  rw [illegalOp_iff hi] at hop
  obtain ⟨i, hN, hopcode⟩ := exists_formatN_of_opcode hop ((opField_eq_iff hi lo 0x3).not.mpr hG)
  exact ⟨i, decode_formatN hN hopcode⟩

theorem decode_of_reservedBitSet (hop : ¬IllegalOp lo) (hres : ReservedBitSet lo) :
    decode (commandWord hi lo) = .reject .reservedField := by
  obtain ⟨hG, hres⟩ | ⟨hG, hres⟩ := hres
  · rw [decode_formatG ((opField_eq_iff hi lo 0x3).mpr hG), if_pos ((reservedG_ne_zero_iff hi lo).mpr hres)]
  · obtain ⟨i, hdec⟩ := decode_of_legal_formatN (hi := hi) hop hG
    rw [hdec, if_pos ((reservedN_ne_zero_iff hi lo).mpr hres)]

/-- GENERATE without a reserved bit: its ADDLEN decides. -/
theorem decode_of_generate (hG : lo.toNat % 16 = 3) (hres : ¬ReservedBitSet lo) :
    decode (commandWord hi lo) =
      if 45 ≤ lo.toNat / 16 % 64 then .reject .badAddlen
      else .command (.generate hi (addlenField (commandWord hi lo))) := by
  have hzero : ¬reservedG (commandWord hi lo) ≠ 0 := fun h => hres (.inl ⟨hG, (reservedG_ne_zero_iff hi lo).mp h⟩)
  rw [decode_formatG ((opField_eq_iff hi lo 0x3).mpr hG), if_neg hzero, outlenField_commandWord, toNat_addlenField]
  rfl

theorem decode_of_addlenTooLong (hres : ¬ReservedBitSet lo) (hlong : AddlenTooLong lo) :
    decode (commandWord hi lo) = .reject .badAddlen := by
  obtain ⟨hG, hlen⟩ := hlong
  rw [decode_of_generate hG hres, if_pos hlen]

/-- A word that none of the decoder's three causes applies to is a command. -/
theorem exists_decode_command (hop : ¬IllegalOp lo) (hres : ¬ReservedBitSet lo) (hlong : ¬AddlenTooLong lo) :
    ∃ i, decode (commandWord hi lo) = .command i := by
  by_cases hG : lo.toNat % 16 = 3
  · exact ⟨_, (decode_of_generate hG hres).trans (if_neg fun hlen => hlong ⟨hG, hlen⟩)⟩
  · obtain ⟨i, hdec⟩ := decode_of_legal_formatN (hi := hi) hop hG
    exact ⟨i, hdec.trans (if_neg fun h => hres (.inr ⟨hG, (reservedN_ne_zero_iff hi lo).mp h⟩))⟩

/-- A decoded command has the OP of the word. -/
theorem opcode_of_decode {cmd : BitVec 64} {i : Instr} (h : decode cmd = .command i) : opField cmd = opcode i := by
  obtain ⟨rfl, hop, -, -⟩ | ⟨-, hop, -⟩ := decode_command_cases h
  · exact hop
  · exact hop

/-- The commands that need a key, by their opcodes (R112). -/
theorem needsKey_iff_opcode (i : Instr) :
    needsKey i = true ↔ (opcode i).toNat = 2 ∨ (opcode i).toNat = 3 ∨ (opcode i).toNat = 4 := by
  cases i with
  | init => decide
  | reseed => decide
  | generate outlen addlen => simp [needsKey, opcode]
  | nextword32 => decide
  | zeroize => decide

theorem keyMissing_iff {i : Instr} {keyed : Bool} (h : decode (commandWord hi lo) = .command i) :
    KeyMissing lo keyed ↔ needsKey i = true ∧ keyed = false := by
  rw [needsKey_iff_opcode, ← opcode_of_decode h, toNat_opField]
  rfl

theorem check_of_keyMissing {keyed : Bool} (hop : ¬IllegalOp lo) (hres : ¬ReservedBitSet lo)
    (hlong : ¬AddlenTooLong lo) (hkey : KeyMissing lo keyed) :
    check (commandWord hi lo) keyed = .reject .notKeyed := by
  obtain ⟨i, hdec⟩ := exists_decode_command (hi := hi) hop hres hlong
  rw [check_of_decode_command hdec, if_pos ((keyMissing_iff hdec).mp hkey)]

theorem exists_check_command {keyed : Bool} (hop : ¬IllegalOp lo) (hres : ¬ReservedBitSet lo)
    (hlong : ¬AddlenTooLong lo) (hkey : ¬KeyMissing lo keyed) :
    ∃ i, check (commandWord hi lo) keyed = .command i := by
  obtain ⟨i, hdec⟩ := exists_decode_command (hi := hi) hop hres hlong
  exact ⟨i, (check_of_decode_command hdec keyed).trans (if_neg ((keyMissing_iff hdec).not.mp hkey))⟩

end Sys2Proof
end

section
/-! SUPPORT. What issuing a command does, from what the check of its word answers (60_exceptions.md R112, R114, R115). -/

namespace Sys2Proof.Machine

/-- A word the check rejects: the step is the rejection with that code. -/
theorem issueCommand_of_check_reject {v : Word} {s : State} {c : RejectCode}
    (h : check (commandWord s.cmdHi v) s.keyed = .reject c) : issueCommand v s = .next (reject c s) := by
  obtain hdec | ⟨rfl, hk, i, hdec, hn⟩ := check_reject_cases h
  · simp only [issueCommand, hdec]
  · obtain ⟨hwf, -⟩ := wf_encodeWith_of_decode hdec
    simp only [issueCommand, hdec, exec_unkeyed hwf hn hk]

/-- A word the check accepts: the step is the command's effect and its completion. -/
theorem issueCommand_of_check_command {v : Word} {s : State} {i : Instr}
    (h : check (commandWord s.cmdHi v) s.keyed = .command i) :
    issueCommand v s = .next (accept (effectOf i s)) := by
  obtain ⟨hdec, hk⟩ := check_eq_command_iff.mp h
  obtain ⟨hwf, -⟩ := wf_encodeWith_of_decode hdec
  simp only [issueCommand, hdec, exec_accepted hwf hk]

end Sys2Proof.Machine
end

section
/-! SUPPORT. Which steps have a next state, and what an access other than a CMD_LO write can change (20_memory.md R45,
R47; 60_exceptions.md R110, R126). -/

namespace Sys2Proof.Machine

/-- With nothing to come the core waits. -/
theorem step_of_idle {s : State} (hp : s.pending = []) : step s = .next s := by
  simp only [step, runNext, hp]

/-- The next event runs on the state it is taken off. -/
theorem step_of_pending {s : State} {e : Event} {rest : List Event} (hp : s.pending = e :: rest) :
    step s = runEvent e { s with pending := rest } := by
  simp only [step, runNext, hp]

/-- A write completes, whatever the register. -/
theorem writeReg_completes (s : State) (v : Word) (r : Reg) : ∃ t, writeReg s v r = .next t := by
  cases r with
  | cmdLo =>
    obtain ⟨t, ht, -⟩ := issueCommand_clears_arg v s
    exact ⟨t, ht⟩
  | cmdHi => exact ⟨_, rfl⟩
  | arg j => exact ⟨_, rfl⟩
  | status | result | dbgKey | dbgNonce | dbgCtr | dbgCur | reserved =>
    exact ⟨s, writeReg_of_not_writable rfl s v⟩

/-- A legal access completes. -/
theorem runAccess_of_legal {a : Access} {s : State} (h : legalAccess s.params a = true) :
    ∃ t, runAccess a s = .next t := by
  rw [runAccess, resolve_legal h]
  cases a.kind with
  | read => exact ⟨_, rfl⟩
  | write v => exact writeReg_completes s v _

/-- Any other access is refused. -/
theorem runAccess_of_illegal {a : Access} {s : State} (h : legalAccess s.params a = false) :
    ∃ r, runAccess a s = .refused r := by
  obtain ⟨r, hr⟩ := resolve_illegal h
  exact ⟨r, by rw [runAccess, hr]⟩

/-- An access that issues no command writes CMD_HI, ARG and the model's own fields at most. -/
theorem step_access_frame {s t : State} {e : Event} {rest : List Event} (hp : s.pending = e :: rest)
    (hreset : e ≠ .reset) (hcmd : ∀ v, e ≠ hostWrite s.params 0x00 v) (h : step s = .next t) :
    ∃ cmdHi arg pending reads, t = { s with cmdHi := cmdHi, arg := arg, pending := pending, reads := reads } := by
  obtain ⟨hidle, -⟩ | ⟨e', rest', hp', hcases⟩ := step_cases h
  · rw [hp] at hidle
    cases hidle
  · rw [hp] at hp'
    cases hp'
    obtain ⟨he, -⟩ | ⟨w, rfl⟩ | ⟨v, rfl⟩ | ⟨j, v, rfl⟩ | rfl | ⟨v, he, -⟩ := hcases
    · exact absurd he hreset
    · exact ⟨_, _, _, _, rfl⟩ -- a read
    · exact ⟨_, _, _, _, rfl⟩ -- a CMD_HI write
    · exact ⟨_, _, _, _, rfl⟩ -- an ARG write
    · exact ⟨_, _, _, _, rfl⟩ -- a write that does nothing
    · exact absurd he (hcmd v)

end Sys2Proof.Machine
end

section
/-! THEOREMS. The statements of 60_exceptions.md. -/

namespace Sys2Proof.Proofs

open Sys2Proof.Machine

/-- Settles O8, by which cause is the first to apply: the check's answer in that case decides every clause. -/
theorem rejectionCodeFollowsThePriority : Obligations.RejectionCodeFollowsThePriority := by
  intro hi lo keyed op add illegal reserved long locked
  by_cases hop : illegal
  · have hcheck := check_of_decode_reject (decode_of_illegalOp (hi := hi) hop) keyed
    simp [hcheck, hop]
  by_cases hres : reserved
  · have hcheck := check_of_decode_reject (decode_of_reservedBitSet (hi := hi) hop hres) keyed
    simp [hcheck, hop, hres]
  by_cases hlong : long
  · have hcheck := check_of_decode_reject (decode_of_addlenTooLong (hi := hi) hres hlong) keyed
    simp [hcheck, hop, hres, hlong]
  by_cases hkey : locked
  · have hcheck := check_of_keyMissing (hi := hi) hop hres hlong hkey
    simp [hcheck, hop, hres, hlong, hkey]
  · obtain ⟨i, hcheck⟩ := exists_check_command (hi := hi) hop hres hlong hkey
    obtain ⟨hdec, -⟩ := check_eq_command_iff.mp hcheck
    simp [hcheck, hop, hres, hlong, hkey, hdec]

/-- Settles O10: the write issues a command, and the check's code is the one the rejection records. -/
theorem rejectedCommandOnlyRecordsItsCode : Obligations.RejectedCommandOnlyRecordsItsCode := by
  intro s v rest c hp hcheck
  calc step s = issueCommand v { s with pending := rest } := step_hostWrite hp rfl (by decide)
    _ = .next (reject c { s with pending := rest }) := issueCommand_of_check_reject hcheck

/-- Settles O11: the completion writes ERR and ARG, and no effect writes STICKY. -/
theorem acceptedCommandCompletes : Obligations.AcceptedCommandCompletes := by
  intro s v rest i hp hcheck
  refine ⟨accept (effectOf i { s with pending := rest }), ?_, accept_err _, accept_arg _, ?_⟩
  · exact (step_hostWrite hp rfl (by decide)).trans (issueCommand_of_check_command hcheck)
  · rw [accept_sticky, effectOf_sticky]

/-- Settles O13, by the kind of event: a reset completes, and an access completes or is refused as it is legal or
not. -/
theorem onlyIllegalAccessesAreRefused : Obligations.OnlyIllegalAccessesAreRefused := by
  intro s e rest hp
  rw [step_of_pending hp]
  cases e with
  | reset => exact ⟨fun _ => ⟨_, rfl⟩, fun h => by cases h⟩
  | access a =>
    exact ⟨runAccess_of_legal (s := { s with pending := rest }),
      runAccess_of_illegal (s := { s with pending := rest })⟩

/-- Settles O49: an access that issues no command writes none of these fields. -/
theorem coreStateMovesOnlyByCommandOrReset : Obligations.CoreStateMovesOnlyByCommandOrReset := by
  intro s t e rest hp hreset hcmd h
  obtain ⟨cmdHi, arg, pending, reads, rfl⟩ := step_access_frame hp hreset hcmd h
  exact ⟨rfl, rfl, rfl, rfl, rfl, rfl, rfl, rfl, rfl, rfl, rfl⟩

/-- Settles O12: with no event to come the step is the waiting one. -/
theorem idleCoreKeepsEverything : Obligations.IdleCoreKeepsEverything := fun _ => step_of_idle

/-- Settles O19: each of the three commands is well-formed and needs a key. -/
theorem unkeyedCommandsTakeNotKeyed : Obligations.UnkeyedCommandsTakeNotKeyed := by
  intro s outlen addlen hk hle i hi
  simp only [List.mem_cons, List.not_mem_nil, or_false] at hi
  obtain rfl | rfl | rfl := hi
  · exact exec_unkeyed rfl rfl hk
  · exact exec_generate_of_unkeyed hk outlen hle
  · exact exec_unkeyed rfl rfl hk

end Sys2Proof.Proofs
end

section
/-! SUPPORT. The two commands that need no key, and what a command does to STICKY, and to OUT and RESULT on an unkeyed
core (60_exceptions.md R112; 70_reset_and_hazards.md R128 to R130). -/

namespace Sys2Proof.Machine

/-- INIT and ZEROIZE, and no other command, need no key (R112). -/
theorem needsKey_eq_false_iff (i : Instr) : needsKey i = false ↔ i = .init ∨ i = .zeroize := by
  cases i with
  | init => exact iff_of_true rfl (.inl rfl)
  | reseed => decide
  | generate outlen addlen => simp [needsKey]
  | nextword32 => decide
  | zeroize => exact iff_of_true rfl (.inr rfl)

/-- No command clears STICKY: a rejection sets it, and the completion of an effect leaves it (R129). -/
theorem exec_keeps_sticky {i : Instr} {s t : State} (h : exec i s = .next t) (hs : s.sticky = true) :
    t.sticky = true := by
  obtain ⟨-, c, rfl⟩ | ⟨-, -, rfl⟩ := exec_next_cases h
  · exact reject_sticky c s
  · rw [accept_sticky, effectOf_sticky, hs]

/-- OUT as it was, and RESULT as it was or 0: nothing of the keystream is delivered. -/
def Silent (s t : State) : Prop := t.out = s.out ∧ (t.result = s.result ∨ t.result = 0)

/-- A command on an unkeyed core is silent: it is rejected, or it is INIT or ZEROIZE (R128, R130). -/
theorem silent_exec {i : Instr} {s t : State} (hk : s.keyed = false) (h : exec i s = .next t) : Silent s t := by
  obtain ⟨-, c, rfl⟩ | ⟨-, hkey, rfl⟩ := exec_next_cases h
  · exact ⟨reject_out c s, .inl (reject_result c s)⟩
  · have hn : needsKey i = false := Bool.eq_false_iff.mpr fun hn => Bool.noConfusion (hk.symm.trans (hkey hn))
    obtain rfl | rfl := (needsKey_eq_false_iff i).mp hn
    · refine ⟨?_, .inl ?_⟩ -- INIT
      · rw [accept_out, effectOf_out_of_ne_generate (i := .init) (fun _ _ => nofun)]
      · rw [accept_result, effectOf_result_of_ne (i := .init) nofun nofun]
    · exact ⟨rfl, .inr rfl⟩ -- ZEROIZE

end Sys2Proof.Machine
end

section
/-! SUPPORT. The step of a reset, and the kinds of a step that is no reset (20_memory.md R47, R49;
70_reset_and_hazards.md R127). -/

namespace Sys2Proof.Machine

/-- The step that takes a reset always completes, in the reset state (R127). -/
theorem step_of_reset {s : State} {rest : List Event} (hp : s.pending = .reset :: rest) :
    step s = .next { State.resetWith s.params with pending := rest } := by
  rw [step_of_pending hp]
  rfl

/-- A step that takes no reset writes CMD_HI, ARG and the model's own fields at most, or rejects a word, or runs a
command. -/
theorem step_cases_of_not_reset {s t : State} (hreset : s.pending.head? ≠ some .reset) (h : step s = .next t) :
    (∃ cmdHi arg pending reads, t = { s with cmdHi := cmdHi, arg := arg, pending := pending, reads := reads }) ∨
      ∃ rest, (∃ c, t = reject c { s with pending := rest }) ∨ ∃ i, exec i { s with pending := rest } = .next t := by
  obtain ⟨-, rfl⟩ | ⟨e, rest, hp, hstep⟩ := step_cases h
  · exact .inl ⟨_, _, _, _, rfl⟩ -- the core waits
  · obtain ⟨rfl, -⟩ | ⟨w, rfl⟩ | ⟨v, rfl⟩ | ⟨j, v, rfl⟩ | rfl | ⟨v, -, hcmd⟩ := hstep
    · exact absurd (by rw [hp, List.head?_cons]) hreset
    · exact .inl ⟨_, _, _, _, rfl⟩ -- a read
    · exact .inl ⟨_, _, _, _, rfl⟩ -- a CMD_HI write
    · exact .inl ⟨_, _, _, _, rfl⟩ -- an ARG write
    · exact .inl ⟨_, _, _, _, rfl⟩ -- a write that does nothing
    · exact .inr ⟨rest, hcmd⟩

end Sys2Proof.Machine
end

section
/-! THEOREMS. The statements of 70_reset_and_hazards.md. -/

namespace Sys2Proof.Proofs

open Sys2Proof.Machine

/-- Settles O47, by the next event: a step that takes no reset leaves STICKY or sets it, and the reset state has it at
0. -/
theorem stickyIsClearedOnlyByReset : Obligations.StickyIsClearedOnlyByReset := by
  intro s t h
  constructor
  · intro hreset hs
    obtain ⟨cmdHi, arg, pending, reads, rfl⟩ | ⟨rest, ⟨c, rfl⟩ | ⟨i, hexec⟩⟩ := step_cases_of_not_reset hreset h
    · exact hs
    · exact reject_sticky c _
    · exact exec_keeps_sticky hexec hs
  · intro hreset
    obtain ⟨rest, hp⟩ := List.head?_eq_some_iff.mp hreset
    cases (step_of_reset hp).symm.trans h
    rfl

/-- Settles O51, by the kinds of a step that takes no reset: only a command could deliver anything, and without a key
it is silent. -/
theorem unkeyedCoreEmitsNothing : Obligations.UnkeyedCoreEmitsNothing := by
  intro s t hk hreset h
  obtain ⟨cmdHi, arg, pending, reads, rfl⟩ | ⟨rest, ⟨c, rfl⟩ | ⟨i, hexec⟩⟩ := step_cases_of_not_reset hreset h
  · exact ⟨rfl, .inl rfl⟩
  · exact ⟨reject_out c _, .inl (reject_result c _)⟩
  · exact silent_exec (s := { s with pending := rest }) hk hexec

/-- Settles O2: the event is taken off, and the state behind it is the reset state. -/
theorem laterResetEqualsPowerOn : Obligations.LaterResetEqualsPowerOn := fun _ _ => step_of_reset

/-- Settles O3, by whether the command needs a key: INIT and ZEROIZE complete with no code, and the others take
NOT_KEYED. -/
theorem unkeyedAcceptsOnlyInitAndZeroize : Obligations.UnkeyedAcceptsOnlyInitAndZeroize := by
  refine ⟨fun _ => rfl, fun s i hk hwf => ?_⟩
  rw [← needsKey_eq_false_iff i]
  cases hn : needsKey i with
  | false =>
    have hexec : exec i s = .next (accept (effectOf i s)) := exec_accepted hwf fun h => by simp [hn] at h
    exact ⟨_, hexec, by simp, by simp⟩
  | true => exact ⟨_, exec_unkeyed hwf hn hk, by simp, by simp⟩

end Sys2Proof.Proofs
end
